-- ==== Sys2Proof/Word.lean ====
section
/-! DEFINITION. The fixed widths of the command and response records (spec/30_encoding.md R61, R62). -/

namespace Sys2Proof

/-- The opcode field of the command record (R61). -/
abbrev Opcode := BitVec 8

/-- A posit operand or result bus: wide enough for every format, `N <= 32` (R61, R62). -/
abbrev Bus := BitVec 32

/-- The record's 16-bit field `c`: PENC's scale or the quire word index (R61). -/
abbrev Half := BitVec 16

/-- A 64-bit quire word, fraction or datum (R61, R62). -/
abbrev QuireWord := BitVec 64

end Sys2Proof
end

