-- ==== Sys2Proof/Machine/Exact.lean ====
section
/-! DEFINITION. Exact arithmetic before rounding: dyadic rationals, integer square root, bit strings
(spec/00_scope.md R9, R10; spec/40_codec.md R86: every posit's value is a dyadic rational). -/

namespace Sys2Proof.Machine

/-- The dyadic rational `num * 2^exp`. -/
structure Dyad where
  num : Int
  exp : Int
deriving DecidableEq, Repr

/-- `2^n` as an integer. -/
def pow2 (n : Nat) : Int := ((2 ^ n : Nat) : Int)

/-- The integer of which `x` is the `2^lo` multiple, for `lo <= x.exp`. -/
def Dyad.alignTo (lo : Int) (x : Dyad) : Int := x.num * pow2 (x.exp - lo).toNat

/-- The exact sum. -/
def Dyad.add (x y : Dyad) : Dyad :=
  let lo := min x.exp y.exp
  { num := x.alignTo lo + y.alignTo lo, exp := lo }

/-- The exact negation. -/
def Dyad.neg (x : Dyad) : Dyad := { num := -x.num, exp := x.exp }

/-- The exact difference. -/
def Dyad.sub (x y : Dyad) : Dyad := x.add y.neg

/-- The exact product. -/
def Dyad.mul (x y : Dyad) : Dyad := { num := x.num * y.num, exp := x.exp + y.exp }

/-- `x * 2^n`. -/
def Dyad.shift (x : Dyad) (n : Int) : Dyad := { num := x.num, exp := x.exp + n }

/-- The integer `n` as a dyadic. -/
def Dyad.ofInt (n : Int) : Dyad := { num := n, exp := 0 }

/-- `x` as an exact quotient `top / bottom` of integers, `bottom` a power of two. -/
def Dyad.top (x : Dyad) : Int := x.num * pow2 x.exp.toNat

/-- The denominator that goes with `Dyad.top`: 1 unless the exponent is negative. -/
def Dyad.bottom (x : Dyad) : Int := pow2 (-x.exp).toNat

/-- `floor(x)` (R9). -/
def Dyad.floor (x : Dyad) : Int := x.top / x.bottom

/-- `ceil(x)` (R9). -/
def Dyad.ceil (x : Dyad) : Int := -(-x.top / x.bottom)

/-- The integer nearest `x`, ties to the even one: R128's `n = floor(x)`, `r = x - n`, and
`if r > 1/2 or (r == 1/2 and n mod 2 == 1): n = n + 1`, with `r = rest / bottom`. -/
def Dyad.nearestEven (x : Dyad) : Int :=
  let n := x.floor
  let rest := x.top % x.bottom
  if x.bottom < 2 * rest ∨ (2 * rest = x.bottom ∧ n % 2 = 1) then n + 1 else n

/-- The bits `i-1 .. 0` of the integer square root of `n`, found from the top, on the bits `acc` found so far. -/
def isqrtBits (n : Nat) : Nat → Nat → Nat
  | 0, acc => acc
  | i + 1, acc => isqrtBits n i (if (acc + 2 ^ i) * (acc + 2 ^ i) ≤ n then acc + 2 ^ i else acc)

/-- The integer square root: the largest `r` with `r*r <= n`. The algorithm is not architectural (R131, D30). -/
def isqrt (n : Nat) : Nat := isqrtBits n (n.log2 / 2 + 1) 0

/-- A bit string (R10): `len` bits, `val` the integer they spell, first bit most significant. -/
structure BitStr where
  len : Nat
  val : Nat
deriving DecidableEq, Repr

/-- `a ++ b`, a's bits first (R10). -/
def BitStr.append (a b : BitStr) : BitStr := { len := a.len + b.len, val := a.val * 2 ^ b.len + b.val }

/-- The first `n` bits as an integer; a shorter string is read as if padded with zeros (R103). -/
def BitStr.first (t : BitStr) (n : Nat) : Nat :=
  if n ≤ t.len then t.val / 2 ^ (t.len - n) else t.val * 2 ^ (n - t.len)

/-- Bit `i`, numbered from 0 at the first bit; a bit past the end is 0 (R103). -/
def BitStr.bit (t : BitStr) (i : Nat) : Bool := t.first (i + 1) % 2 == 1

/-- Whether any bit from bit `n` on is 1. -/
def BitStr.anyFrom (t : BitStr) (n : Nat) : Bool :=
  if n ≤ t.len then t.val % 2 ^ (t.len - n) != 0 else false

end Sys2Proof.Machine
end

