-- ==== Sys2Proof/Config.lean ====
section
/-! DEFINITION. What is fixed when an instance is built (spec/00_scope.md R3, R6, R7), and the named profiles. -/

namespace Sys2Proof

/-- The elaboration parameters of an instance (R6).
`LAT` is the open parameter of R226 (D22): no definition of the model but `Config.Legal` reads it. -/
structure Config where
  /-- posit width, bits -/
  N : Nat
  /-- exponent field width, bits -/
  ES : Nat
  /-- quire fraction bits: the binary point's position -/
  QF : Nat
  /-- quire width, bits -/
  QW : Nat
  /-- a bound on the latency of a command, in cycles -/
  LAT : Nat
deriving DecidableEq, Repr

/-- `2^(ES+1)*(N-2)`: the number of bits by which `minpos^2` lies below 1 and `maxpos^2` above it (R7). -/
def Config.productBits (c : Config) : Nat := 2 ^ (c.ES + 1) * (c.N - 2)

/-- The parameter sets the spec gives a meaning to: the ranges of R3 and R6, the two inequalities of R7. -/
abbrev Config.Legal (c : Config) : Prop :=
  3 ≤ c.N ∧ c.N ≤ 32 ∧ c.ES ≤ 2 ∧ c.productBits ≤ c.QF ∧ c.QF + c.productBits + 2 ≤ c.QW ∧ 1 ≤ c.LAT

/-- `QWORDS = ceil(QW/64)`, the number of words of the quire's word view (R6, R42). -/
def Config.quireWords (c : Config) : Nat := (c.QW + 63) / 64

/-- `useed = 2^(2^ES)` (R6). -/
def Config.useed (c : Config) : Nat := 2 ^ (2 ^ c.ES)

/-- The instance of `Posit<N,ES>` with the default quire of R6: `QF = 2^(ES+1)*(N-2)`, `QW = 2*QF + N`.
The spec leaves `LAT` open: 1 is the least value R6 allows (DESIGN CHOICE, notes/assumptions/3.md, unsafe only
for a claim about time, and the model has none). -/
def Config.ofFormat (n es : Nat) : Config :=
  { N := n, ES := es, QF := 2 ^ (es + 1) * (n - 2), QW := 2 * (2 ^ (es + 1) * (n - 2)) + n, LAT := 1 }

/-- Profile P8E0 (R3). -/
def Config.p8e0 : Config := Config.ofFormat 8 0

/-- Profile P16E1 (R3; its ES is the spec's general knowledge, G1). -/
def Config.p16e1 : Config := Config.ofFormat 16 1

/-- Profile P32E2 (R3). -/
def Config.p32e2 : Config := Config.ofFormat 32 2

/-- The generic family `PxE1<N>` (R3). -/
def Config.pxe1 (n : Nat) : Config := Config.ofFormat n 1

/-- The generic family `PxE2<N>` (R3). -/
def Config.pxe2 (n : Nat) : Config := Config.ofFormat n 2

end Sys2Proof
end

