-- ==== Sys2Proof/Machine/Flags.lean ====
section
/-! DEFINITION. The pattern constants (spec/10_state.md R21, R23) and the predicates on patterns that take the
place of flags: "The block has no status flags, condition codes or predicates, and no sticky exception flags" (R29);
PDEC's `zero`, `nar` and `sign` outputs and every NaR condition of R201 are computed here. -/

namespace Sys2Proof.Machine

/-- `ZERO` (R23). -/
def positZero (c : Config) : BitVec c.N := 0

/-- `NaR = 2^(N-1)` (R23). -/
def positNaR (c : Config) : BitVec c.N := BitVec.ofNat c.N (2 ^ (c.N - 1))

/-- `ONE = 2^(N-2)` (R23). -/
def positOne (c : Config) : BitVec c.N := BitVec.ofNat c.N (2 ^ (c.N - 2))

/-- `MAXPOS = 2^(N-1) - 1` (R23). -/
def positMaxPos (c : Config) : BitVec c.N := BitVec.ofNat c.N (2 ^ (c.N - 1) - 1)

/-- `MINPOS = 1` (R23). -/
def positMinPos (c : Config) : BitVec c.N := BitVec.ofNat c.N 1

/-- The quire NaR pattern: bit `QW-1` set and every other bit 0 (R21). -/
def quireNaR (c : Config) : BitVec c.QW := BitVec.ofNat c.QW (2 ^ (c.QW - 1))

/-- The pattern is ZERO. -/
def isZero (c : Config) (p : BitVec c.N) : Bool := p == positZero c

/-- The pattern is NaR. -/
def isNaR (c : Config) (p : BitVec c.N) : Bool := p == positNaR c

/-- Bit `N-1`, the sign bit (R41). It is 1 for NaR and for every negative value (R127). -/
def signBit (c : Config) (p : BitVec c.N) : Bool := p.getLsbD (c.N - 1)

/-- `neg(p) = u_N(-p)`, two's-complement negation of the pattern (R12, R26). -/
def positNeg (c : Config) (p : BitVec c.N) : BitVec c.N := -p

end Sys2Proof.Machine
end

