-- ==== Sys2Proof/Syntax.lean ====
section
/-! DEFINITION. The command record (spec/30_encoding.md R61) and the 18 commands of the opcode map (R64). -/

namespace Sys2Proof

/-- The command record `cmd`, presented whole in one transaction (R60, R61). -/
structure Cmd where
  /-- opcode -/
  op : Opcode
  /-- first posit operand bus -/
  a : Bus
  /-- second posit operand bus -/
  b : Bus
  /-- PENC: sign of the value to pack -/
  s : Bool
  /-- PENC: scale, two's complement; QRD, QWR: word index, unsigned -/
  c : Half
  /-- PENC: fraction bits below the hidden bit; QWR: data word -/
  d : QuireWord
  /-- PENC: sticky bit -/
  t : Bool
deriving DecidableEq, Repr

/-- A command with the record fields it uses and no others: one constructor per row of the opcode map (R64).
The operands are the record's fields as they are presented; R65's assembly is Machine/Operands.lean's. -/
inductive Instr where
  | pdec (a : Bus)
  | penc (sgn : Bool) (scale : Half) (frac : QuireWord) (stk : Bool)
  | pneg (a : Bus)
  | padd (a b : Bus)
  | psub (a b : Bus)
  | pmul (a b : Bus)
  | pdiv (a b : Bus)
  | psqrt (a : Bus)
  | prnd (a : Bus)
  | pflr (a : Bus)
  | pceil (a : Bus)
  | qclr
  | qneg
  | qmadd (a b : Bus)
  | qmsub (a b : Bus)
  | qtop
  | qrd (idx : Half)
  | qwr (idx : Half) (data : QuireWord)
deriving DecidableEq, Repr

end Sys2Proof
end

