-- ==== Sys2Proof/WellFormed.lean ====
section
/-! DEFINITION. What a host may present to an instance (spec/30_encoding.md R67, spec/20_memory.md R45,
spec/70_reset_and_hazards.md R225). -/

namespace Sys2Proof

/-- A quire word index is legal in `0..QWORDS-1` (R45). -/
abbrev Config.indexLegal (c : Config) (idx : Half) : Prop := idx.toNat < c.quireWords

/-- The only illegal operand of an assigned opcode is a quire word index out of range:
"A used field has no reserved values ... except a QRD or QWR index outside `0..QWORDS-1`" (R67). -/
def Instr.wellFormed (c : Config) : Instr → Bool
  | .pdec _ => true
  | .penc _ _ _ _ => true
  | .pneg _ => true
  | .padd _ _ => true
  | .psub _ _ => true
  | .pmul _ _ => true
  | .pdiv _ _ => true
  | .psqrt _ => true
  | .prnd _ => true
  | .pflr _ => true
  | .pceil _ => true
  | .qclr => true
  | .qneg => true
  | .qmadd _ _ => true
  | .qmsub _ _ => true
  | .qtop => true
  | .qrd idx => decide (c.indexLegal idx)
  | .qwr idx _ => decide (c.indexLegal idx)

end Sys2Proof
end

