-- ==== Sys2Proof/Decode.lean ====
section
/-! DEFINITION. Decoding a command record (spec/30_encoding.md R60, R63, R64, R67), the encoder (R69), and the
numbering of the record's bits that the opcode table's words are read by. -/

namespace Sys2Proof

/-- Why a record is no command. -/
inductive DecodeError where
  /-- One of the 238 values of `cmd.op` that R67 reserves. -/
  | reservedOpcode (op : Opcode)
deriving DecidableEq, Repr

/-- The command of a record: `cmd.op` alone decides which (R60), the whole byte must match (R63), and a field the
command does not use is ignored (R61). -/
def decode (cmd : Cmd) : Except DecodeError Instr :=
  match cmd.op.toNat with
  | 0x01 => .ok (.pdec cmd.a)
  | 0x02 => .ok (.penc cmd.s cmd.c cmd.d cmd.t)
  | 0x03 => .ok (.pneg cmd.a)
  | 0x10 => .ok (.padd cmd.a cmd.b)
  | 0x11 => .ok (.psub cmd.a cmd.b)
  | 0x12 => .ok (.pmul cmd.a cmd.b)
  | 0x13 => .ok (.pdiv cmd.a cmd.b)
  | 0x14 => .ok (.psqrt cmd.a)
  | 0x15 => .ok (.prnd cmd.a)
  | 0x16 => .ok (.pflr cmd.a)
  | 0x17 => .ok (.pceil cmd.a)
  | 0x20 => .ok .qclr
  | 0x21 => .ok .qneg
  | 0x22 => .ok (.qmadd cmd.a cmd.b)
  | 0x23 => .ok (.qmsub cmd.a cmd.b)
  | 0x24 => .ok .qtop
  | 0x25 => .ok (.qrd cmd.c)
  | 0x26 => .ok (.qwr cmd.c cmd.d)
  | _ => .error (.reservedOpcode cmd.op)

/-- The record with the given opcode and every other field 0 (R69). -/
def Cmd.ofOp (op : Opcode) : Cmd := { op := op, a := 0, b := 0, s := false, c := 0, d := 0, t := false }

/-- The encoding of a written command: its opcode (R64), its operands in their fields, every other field 0 (R69). -/
def encode : Instr → Cmd
  | .pdec a => { Cmd.ofOp 0x01 with a := a }
  | .penc sgn scale frac stk => { Cmd.ofOp 0x02 with s := sgn, c := scale, d := frac, t := stk }
  | .pneg a => { Cmd.ofOp 0x03 with a := a }
  | .padd a b => { Cmd.ofOp 0x10 with a := a, b := b }
  | .psub a b => { Cmd.ofOp 0x11 with a := a, b := b }
  | .pmul a b => { Cmd.ofOp 0x12 with a := a, b := b }
  | .pdiv a b => { Cmd.ofOp 0x13 with a := a, b := b }
  | .psqrt a => { Cmd.ofOp 0x14 with a := a }
  | .prnd a => { Cmd.ofOp 0x15 with a := a }
  | .pflr a => { Cmd.ofOp 0x16 with a := a }
  | .pceil a => { Cmd.ofOp 0x17 with a := a }
  | .qclr => Cmd.ofOp 0x20
  | .qneg => Cmd.ofOp 0x21
  | .qmadd a b => { Cmd.ofOp 0x22 with a := a, b := b }
  | .qmsub a b => { Cmd.ofOp 0x23 with a := a, b := b }
  | .qtop => Cmd.ofOp 0x24
  | .qrd idx => { Cmd.ofOp 0x25 with c := idx }
  | .qwr idx data => { Cmd.ofOp 0x26 with c := idx, d := data }

/-- The encoding of a program: "the list of these records, in order" (R69). -/
def encodeProgram (p : List Instr) : List Cmd := p.map encode

/-- `cmd.op[7:4]`, the opcode's group (R63). -/
def Cmd.group (cmd : Cmd) : BitVec 4 := cmd.op.extractLsb' 4 4

/-- `cmd.op[3:0]`, the opcode's function in its group (R63). -/
def Cmd.function (cmd : Cmd) : BitVec 4 := cmd.op.extractLsb' 0 4

/-- A row of the opcode map (R64): the values of `cmd.op` that match it, and its mnemonic. -/
structure OpRow where
  pattern : Opcode
  mask : Opcode
  mnemonic : String
deriving DecidableEq, Repr

/-- Rows 0x01 to 0x17 of the opcode map: the codec and packer, and the posit arithmetic (R64). -/
def opcodeTablePosit : List OpRow :=
  [ { pattern := 0x01, mask := 0xFF, mnemonic := "PDEC" }
  , { pattern := 0x02, mask := 0xFF, mnemonic := "PENC" }
  , { pattern := 0x03, mask := 0xFF, mnemonic := "PNEG" }
  , { pattern := 0x10, mask := 0xFF, mnemonic := "PADD" }
  , { pattern := 0x11, mask := 0xFF, mnemonic := "PSUB" }
  , { pattern := 0x12, mask := 0xFF, mnemonic := "PMUL" }
  , { pattern := 0x13, mask := 0xFF, mnemonic := "PDIV" }
  , { pattern := 0x14, mask := 0xFF, mnemonic := "PSQRT" }
  , { pattern := 0x15, mask := 0xFF, mnemonic := "PRND" }
  , { pattern := 0x16, mask := 0xFF, mnemonic := "PFLR" }
  , { pattern := 0x17, mask := 0xFF, mnemonic := "PCEIL" } ]

/-- Rows 0x20 to 0x26 of the opcode map: the quire commands (R64). -/
def opcodeTableQuire : List OpRow :=
  [ { pattern := 0x20, mask := 0xFF, mnemonic := "QCLR" }
  , { pattern := 0x21, mask := 0xFF, mnemonic := "QNEG" }
  , { pattern := 0x22, mask := 0xFF, mnemonic := "QMADD" }
  , { pattern := 0x23, mask := 0xFF, mnemonic := "QMSUB" }
  , { pattern := 0x24, mask := 0xFF, mnemonic := "QTOP" }
  , { pattern := 0x25, mask := 0xFF, mnemonic := "QRD" }
  , { pattern := 0x26, mask := 0xFF, mnemonic := "QWR" } ]

/-- The opcode map (R64). -/
def opcodeTable : List OpRow := opcodeTablePosit ++ opcodeTableQuire

/-- A row matches an opcode when the opcode's masked bits are the row's pattern. -/
def OpRow.matchesOp (r : OpRow) (op : Opcode) : Bool := op &&& r.mask == r.pattern

/-- How many bits the command record has (R61): 8 + 32 + 32 + 1 + 16 + 64 + 1. -/
def Cmd.bits : Nat := 154

/-- The record whose bits are `w`, numbered from `op` upward in the order R61 lists the fields: `op` bits 7..0,
`a` 39..8, `b` 71..40, `s` 72, `c` 88..73, `d` 152..89, `t` 153. The opcode table numbers only `op` (bits 7..0);
the places of the other fields are the model's (DESIGN CHOICE, notes/assumptions/5.md, safe: a record is
presented whole and no rule sees its bits numbered). -/
def Cmd.ofWord (w : Nat) : Cmd :=
  { op := BitVec.ofNat 8 w
    a := BitVec.ofNat 32 (w / 2 ^ 8)
    b := BitVec.ofNat 32 (w / 2 ^ 40)
    s := w / 2 ^ 72 % 2 == 1
    c := BitVec.ofNat 16 (w / 2 ^ 73)
    d := BitVec.ofNat 64 (w / 2 ^ 89)
    t := w / 2 ^ 153 % 2 == 1 }

/-- The bits of a record, numbered as in `Cmd.ofWord`. -/
def Cmd.toWord (cmd : Cmd) : Nat :=
  cmd.op.toNat + cmd.a.toNat * 2 ^ 8 + cmd.b.toNat * 2 ^ 40 + cmd.s.toNat * 2 ^ 72 + cmd.c.toNat * 2 ^ 73
    + cmd.d.toNat * 2 ^ 89 + cmd.t.toNat * 2 ^ 153

/-- The record that an opcode-table word of `nbits` bits stands for: every bit above `nbits` is 0. -/
def Cmd.ofTableWord (nbits w : Nat) : Cmd := Cmd.ofWord (w % 2 ^ nbits)

/-- The command that the decoder reads from an opcode-table word, if it is one. -/
def decodeTableWord (nbits w : Nat) : Option Instr :=
  match decode (Cmd.ofTableWord nbits w) with
  | .ok i => some i
  | .error _ => none

end Sys2Proof
end

