-- ==== Sys2Proof/Machine/State.lean ====
section
/-! DEFINITION. The state of the block (spec/10_state.md R20, R21), the response record (spec/30_encoding.md R62),
what its host presents (spec/70_reset_and_hazards.md R225), and reset (R220, R222). -/

namespace Sys2Proof.Machine

/-- The response record `resp` (R62). -/
structure Response where
  /-- posit result -/
  r : Bus
  /-- PDEC: fraction left-justified; QRD: quire word -/
  x : QuireWord
  /-- PDEC: operand is ZERO -/
  zero : Bool
  /-- PDEC: operand is NaR -/
  nar : Bool
  /-- PDEC: sign bit of the operand -/
  sign : Bool
  /-- PDEC: regime value, two's complement -/
  k : BitVec 8
  /-- PDEC: regime run length -/
  m : BitVec 6
  /-- PDEC: exponent -/
  e : BitVec 2
  /-- PDEC: number of fraction bits present -/
  nf : BitVec 6
  /-- PDEC: `k*2^ES + e`, two's complement -/
  scale : BitVec 16
  /-- PDEC: bits after the regime and terminator, left-justified in N-1 bits -/
  tail : Bus
deriving DecidableEq, Repr

/-- The response in which no field is written: "Every field a command does not write reads as 0" (R62). -/
def Response.empty : Response :=
  { r := 0, x := 0, zero := false, nar := false, sign := false, k := 0, m := 0, e := 0, nf := 0, scale := 0, tail := 0 }

/-- What the host may do to the block next (R225). -/
inductive HostEvent where
  /-- It presents one command and waits for the response. -/
  | command (cmd : Cmd)
  /-- It resets the block while no command is in progress. -/
  | reset
  /-- It presents a command, and a reset arrives while that command is in progress (R221). -/
  | resetDuring (cmd : Cmd)
deriving DecidableEq, Repr

/-- The machine. `q` is all the architectural state there is (R20). The other fields are the model's own:
`cfg` is the instance's configuration, which no step changes; `resp` is the response record, none until the first
command after a reset completes (R222); `pending` is what the host will present, in its order (R46, R69); `hosts`
is how many agents present commands to this instance (R47). -/
structure State where
  /-- the parameters the instance is built with (R6) -/
  cfg : Config
  /-- the quire register `Q` (R21) -/
  q : BitVec cfg.QW
  /-- the response to the last command -/
  resp : Option Response
  /-- what the host presents, first to last -/
  pending : List HostEvent
  /-- the number of agents driving the instance -/
  hosts : Nat
deriving DecidableEq, Repr

/-- Faults: none. "The block raises no exception and takes no trap" (R200), and 93_implementation_defined.md does
not use `fault`, so the type has no constructor. -/
inductive Fault where
deriving DecidableEq, Repr

/-- Why the model gives a step no meaning (R202). Each is safe: the model stops, and claims nothing. -/
inductive Refusal where
  /-- An arm of `exec` whose command has no meaning yet: no arm raises it now (safe). -/
  | notModelled (mnemonic : String)
  /-- A reserved opcode was presented (R67): raised by `step` (safe). -/
  | reservedOpcode (op : Opcode)
  /-- QRD or QWR with a word index of `QWORDS` or more (R45): raised by their meanings (safe). -/
  | quireIndexOutOfRange (idx : Half)
  /-- More than one agent presents commands to the instance (R47): raised by `step` (safe). -/
  | severalHosts
  /-- The configuration is outside R3, R6 or R7 (93_implementation_defined.md I6): raised by `step` (safe). -/
  | illegalConfiguration
deriving DecidableEq, Repr

/-- An instance built with the configuration `c`, right after reset: `Q` is the quire ZERO (R220), the response
record holds no value (R222); one host drives it (R47) and presents nothing yet. -/
def State.resetFor (c : Config) : State := { cfg := c, q := 0, resp := none, pending := [], hosts := 1 }

/-- The machine right after reset. The spec does not choose an instance: this one has the profile P32E2 (DESIGN
CHOICE, notes/assumptions/1.md, unsafe for a claim that rests on it; every other instance is `State.resetFor`). -/
def State.reset : State := State.resetFor Config.p32e2

end Sys2Proof.Machine
end

