-- ==== Sys2Proof/Machine/Operands.lean ====
section
/-! DEFINITION. Operand assembly from the command record (spec/30_encoding.md R65) and the posit result bus (R66).
"There are no immediates, no scaling of operands and no other operand forms." -/

namespace Sys2Proof.Machine

/-- `cmd.a[N-1:0]` or `cmd.b[N-1:0]`: the bus bits above `N-1` are ignored (R65). -/
def operandPosit (c : Config) (bus : Bus) : BitVec c.N := bus.setWidth c.N

/-- `scale = sval_16(cmd.c)` (R65). -/
def operandScale (field : Half) : Int := field.toInt

/-- `idx = cmd.c`, unsigned (R65). -/
def operandIndex (field : Half) : Nat := field.toNat

/-- The response that carries a posit result: `resp.r <- zext_32(z)`, every other field 0 (R62, R66). -/
def Response.ofPosit (c : Config) (z : BitVec c.N) : Response := { Response.empty with r := z.setWidth 32 }

/-- The response that carries a quire word (R62). -/
def Response.ofWord (v : QuireWord) : Response := { Response.empty with x := v }

end Sys2Proof.Machine
end

