-- ==== Sys2Proof/Machine/Ops.lean ====
section
/-! DEFINITION. The shared operations on the state: giving a response, writing `Q`, the quire's word view
(spec/20_memory.md R42, R43), reset (spec/70_reset_and_hazards.md R220 to R222), and what the host presents.
The block has no memory (R40), no registers (R27) and takes no exception (R200), so there is nothing else to read,
write or enter. -/

namespace Sys2Proof.Machine

/-- The command completes with the response `r` and leaves `Q` unchanged. -/
def State.respond (s : State) (r : Response) : State := { s with resp := some r }

/-- `resp.r <- zext_32(z)` (R66). -/
def State.respondPosit (s : State) (z : BitVec s.cfg.N) : State := s.respond (Response.ofPosit s.cfg z)

/-- `Q <- v`, with the response in which no field is written: "their whole response is 0 and serves only as
completion" (R62). -/
def State.completeWithQ (s : State) (v : BitVec s.cfg.QW) : State := { s with q := v, resp := some Response.empty }

/-- `P = 64*QWORDS`, the width of the word view (R42). -/
def viewBits (c : Config) : Nat := 64 * c.quireWords

/-- The bit at which word `i` of the view ends: `P-64-64*i` (R42). -/
def wordShift (c : Config) (i : Nat) : Nat := viewBits c - 64 - 64 * i

/-- `E = sext_P(Q)`, the quire's word view as one number (R42). -/
def quireView (c : Config) (q : BitVec c.QW) : BitVec (viewBits c) := q.signExtend (viewBits c)

/-- `QRead(i)`: word `i` of the view, word 0 the most significant (R43). -/
def quireRead (c : Config) (q : BitVec c.QW) (i : Nat) : QuireWord := (quireView c q).extractLsb' (wordShift c i) 64

/-- The mask of word `i` in the view. -/
def wordMask (c : Config) (i : Nat) : BitVec (viewBits c) :=
  (BitVec.allOnes 64).setWidth (viewBits c) <<< wordShift c i

/-- `QWrite(i, v)`: word `i` of the view is replaced by `v`, and `Q` takes the view's low `QW` bits (R43). -/
def quireWrite (c : Config) (q : BitVec c.QW) (i : Nat) (v : QuireWord) : BitVec c.QW :=
  let kept := quireView c q &&& ~~~wordMask c i
  let put := v.setWidth (viewBits c) <<< wordShift c i
  (kept ||| put).setWidth c.QW

/-- Reset: `Q <- 0` (R220); the response record holds no value until the next command completes (R222); the
configuration is unchanged (R222). What the host presents next is the host's, and stays. -/
def State.takeReset (s : State) : State := { s with q := 0, resp := none }

/-- The host presents the commands of a written program after what it presents already (R69, R46). -/
def State.present (s : State) (p : List Instr) : State :=
  { s with pending := s.pending ++ (encodeProgram p).map HostEvent.command }

end Sys2Proof.Machine
end

