-- ==== Sys2Proof/Machine/Codec.lean ====
section
/-! DEFINITION. The bitfield codec (spec/40_codec.md): the field decode of a posit pattern, its value, and PDEC. -/

namespace Sys2Proof.Machine

/-- `u`: the magnitude pattern, the sign stripped by two's-complement negation (R80). -/
def magnitude (c : Config) (p : BitVec c.N) : BitVec c.N := if signBit c p then -p else p

/-- How many consecutive bits of `u`, from bit `n-1` toward bit 0, equal `r0`. -/
def leadingRun {w : Nat} (u : BitVec w) (r0 : Bool) : Nat → Nat
  | 0 => 0
  | n + 1 => if u.getLsbD n = r0 then leadingRun u r0 n + 1 else 0

/-- `r0 = w[N-2]`, the first regime bit (R81). -/
def regimeBit (c : Config) (p : BitVec c.N) : Bool := (magnitude c p).getLsbD (c.N - 2)

/-- `m`, the regime's run length, the terminator not counted (R81). -/
def regimeRun (c : Config) (p : BitVec c.N) : Nat := leadingRun (magnitude c p) (regimeBit c p) (c.N - 1)

/-- `k`, the regime value: `m - 1` for a run of ones, `-m` for a run of zeros (R82). -/
def regimeValue (c : Config) (p : BitVec c.N) : Int :=
  if regimeBit c p then (regimeRun c p : Int) - 1 else -(regimeRun c p : Int)

/-- `consumed`: the run and its terminator, which is present exactly when `m < N-1` (R83). -/
def consumedBits (c : Config) (p : BitVec c.N) : Nat :=
  regimeRun c p + (if regimeRun c p < c.N - 1 then 1 else 0)

/-- `rem`: the number of bits after the terminator (R83). -/
def tailLength (c : Config) (p : BitVec c.N) : Nat := c.N - 1 - consumedBits c p

/-- `tail`: the `rem` bits after the terminator (R83). -/
def tailBits (c : Config) (p : BitVec c.N) : Nat := (magnitude c p).toNat % 2 ^ tailLength c p

/-- `tailj`: the tail left-justified in N-1 bits, zero-filled (R83; 90_conflicts.md C7: no synthetic bit). -/
def tailJustified (c : Config) (p : BitVec c.N) : Nat := tailBits c p * 2 ^ consumedBits c p % 2 ^ (c.N - 1)

/-- `e`: the top ES bits of the tail, read left-justified with zeros filled in (R84). -/
def exponent (c : Config) (p : BitVec c.N) : Nat :=
  if c.ES ≤ tailLength c p then tailBits c p / 2 ^ (tailLength c p - c.ES)
  else tailBits c p * 2 ^ (c.ES - tailLength c p)

/-- `nf = max(rem - ES, 0)`: the number of fraction bits present (R85). -/
def fractionLength (c : Config) (p : BitVec c.N) : Nat := tailLength c p - c.ES

/-- `f`: the tail bits below the exponent (R85). -/
def fraction (c : Config) (p : BitVec c.N) : Nat := tailBits c p % 2 ^ fractionLength c p

/-- `sig = 2^nf + f`: the hidden bit is present for every non-special pattern (R85; 90_conflicts.md C2). -/
def significand (c : Config) (p : BitVec c.N) : Nat := 2 ^ fractionLength c p + fraction c p

/-- `frac64`: the fraction left-justified in 64 bits (R85). -/
def fraction64 (c : Config) (p : BitVec c.N) : Nat :=
  if 0 < fractionLength c p then fraction c p * 2 ^ (64 - fractionLength c p) else 0

/-- `scale = k * 2^ES + e` (R86). -/
def scaleOf (c : Config) (p : BitVec c.N) : Int := regimeValue c p * pow2 c.ES + (exponent c p : Int)

/-- `val(p)` of a pattern that is neither ZERO nor NaR: `(-1)^sign * sig * 2^(scale - nf)` (R86). -/
def finiteValue (c : Config) (p : BitVec c.N) : Dyad :=
  { num := if signBit c p then -(significand c p : Int) else (significand c p : Int)
    exp := scaleOf c p - (fractionLength c p : Int) }

/-- `val(p)`: 0 for ZERO, none for NaR, which has no value (R86). -/
def value (c : Config) (p : BitVec c.N) : Option Dyad :=
  if isNaR c p then none else if isZero c p then some (Dyad.ofInt 0) else some (finiteValue c p)

/-- PDEC's response (R88): ZERO and NaR report only their flag. -/
def decodeResponse (c : Config) (p : BitVec c.N) : Response :=
  if isZero c p then { Response.empty with zero := true }
  else if isNaR c p then { Response.empty with nar := true }
  else
    { Response.empty with
      sign := signBit c p
      k := BitVec.ofInt 8 (regimeValue c p)
      m := BitVec.ofNat 6 (regimeRun c p)
      e := BitVec.ofNat 2 (exponent c p)
      nf := BitVec.ofNat 6 (fractionLength c p)
      scale := BitVec.ofInt 16 (scaleOf c p)
      x := BitVec.ofNat 64 (fraction64 c p)
      tail := BitVec.ofNat 32 (tailJustified c p) }

/-- PDEC: decode a posit into its fields (R88). -/
def execPdec (a : Bus) (s : State) : Host.Outcome State Fault Refusal :=
  .next (s.respond (decodeResponse s.cfg (operandPosit s.cfg a)))

end Sys2Proof.Machine
end

