-- ==== Sys2Proof/Machine/Packer.lean ====
section
/-! DEFINITION. The rounding packer (spec/41_packer.md): regime encode, saturation, round to nearest with ties to
even on the encoding (90_conflicts.md C1), `posit_round`, and PENC. -/

namespace Sys2Proof.Machine

/-- `reg`: the run length of the regime value `k`, terminator excluded (R100; 90_conflicts.md C9). -/
def regimeLength (k : Int) : Nat := if 0 ≤ k then k.toNat + 1 else (-k).toNat

/-- `R(k)`: `1^(k+1) ++ 0` or `0^(-k) ++ 1` (R100). -/
def regimeString (k : Int) : BitStr :=
  { len := regimeLength k + 1, val := if 0 ≤ k then 2 ^ (regimeLength k + 1) - 2 else 1 }

/-- `T = R(k) ++ bin_ES(e) ++ F` (R102). -/
def fieldString (c : Config) (k : Int) (e : Nat) (F : BitStr) : BitStr :=
  ((regimeString k).append { len := c.ES, val := e }).append F

/-- The magnitude result of rounding `T` with `sticky`: the kept bits `M`, `bit_n_plus_one` and `bits_more` of R103,
rounded by R104. A carry out of the increment ripples into the exponent and regime bits. -/
def roundString (c : Config) (T : BitStr) (sticky : Bool) : Nat :=
  let M := T.first (c.N - 1)
  let bitNPlusOne := T.bit (c.N - 1)
  let bitsMore := T.anyFrom c.N || sticky
  M + (if bitNPlusOne && (bitsMore || M % 2 == 1) then 1 else 0)

/-- The magnitude result for the regime value `k`, exponent `e` and fraction `F`: saturation when `reg > N-2`
(R101), else rounding (R102 to R104). -/
def packMagnitude (c : Config) (k : Int) (e : Nat) (F : BitStr) (sticky : Bool) : BitVec c.N :=
  if c.N - 2 < regimeLength k then (if 0 ≤ k then positMaxPos c else positMinPos c)
  else BitVec.ofNat c.N (roundString c (fieldString c k e F) sticky)

/-- The signed result: `(sign == 1) ? u_N(-mag) : mag` (R104). -/
def applySign (c : Config) (neg : Bool) (mag : BitVec c.N) : BitVec c.N := if neg then positNeg c mag else mag

/-- `k = scale >> ES` (R105, R108). -/
def scaleRegime (c : Config) (scale : Int) : Int := scale / pow2 c.ES

/-- `e = scale - k * 2^ES`, `0 <= e < 2^ES` (R105, R108). -/
def scaleExponent (c : Config) (scale : Int) : Nat := (scale - scaleRegime c scale * pow2 c.ES).toNat

/-- The pattern of the real with the given sign and scale and the fraction bits `F` below its hidden bit; `sticky`
says that nonzero bits follow `F`. -/
def pack (c : Config) (neg : Bool) (scale : Int) (F : BitStr) (sticky : Bool) : BitVec c.N :=
  applySign c neg (packMagnitude c (scaleRegime c scale) (scaleExponent c scale) F sticky)

/-- `posit_round` (R105) of a nonzero real given by its sign and its leading bits: its magnitude is `m * 2^e` when
`sticky` is false, and strictly between `m * 2^e` and `(m+1) * 2^e` when it is true. The leading 1 of `m > 0` is the
hidden bit, so `s = floor(log2 m) + e`, and `m`'s other bits are the first bits of `F`. With `sticky`, `m` must have
at least N-1 bits, so that no bit the rounding looks at lies beyond it. -/
def roundBits (c : Config) (neg : Bool) (m : Nat) (e : Int) (sticky : Bool) : BitVec c.N :=
  pack c neg ((m.log2 : Int) + e) { len := m.log2, val := m - 2 ^ m.log2 } sticky

/-- `posit_round(x)` for a dyadic rational `x`: "for a dyadic phi, its terminating expansion" (R105). -/
def positRound (c : Config) (x : Dyad) : BitVec c.N :=
  if x.num = 0 then positZero c else roundBits c (decide (x.num < 0)) x.num.natAbs x.exp false

/-- PENC: pack a sign, a scale and a fraction into a rounded posit (R108). -/
def execPenc (sgn : Bool) (scale : Half) (frac : QuireWord) (stk : Bool) (s : State) :
    Host.Outcome State Fault Refusal :=
  .next (s.respondPosit (pack s.cfg sgn (operandScale scale) { len := 64, val := frac.toNat } stk))

end Sys2Proof.Machine
end

