-- ==== Sys2Proof/Machine/Arith.lean ====
section
/-! DEFINITION. Posit arithmetic (spec/42_arith.md): negate, add, subtract, multiply, divide, square root, round to
integer. Each result is `posit_round` of the exact real result (R120); NaR operands come first, then the ZERO rules,
then the finite computation (R121). -/

namespace Sys2Proof.Machine

/-- A command of one operand on values: NaR in, NaR out (R121). -/
def onValue (c : Config) (f : Dyad → BitVec c.N) (a : BitVec c.N) : BitVec c.N :=
  match value c a with
  | some x => f x
  | none => positNaR c

/-- A command of two operands on values: NaR if either operand is NaR (R121). -/
def onValues (c : Config) (f : Dyad → Dyad → BitVec c.N) (a b : BitVec c.N) : BitVec c.N :=
  match value c a, value c b with
  | some x, some y => f x y
  | _, _ => positNaR c

/-- `posit_round` of the exact quotient `x / y`, both nonzero: "integer division with explicit quotient+remainder
(div, remainder feeds `bits_more`)" (R126). The dividend is shifted left until the quotient has more than N bits;
how far is not architectural (R131). -/
def roundQuotient (c : Config) (x y : Dyad) : BitVec c.N :=
  let d := y.num.natAbs
  let sh := c.N + d.log2 + 1
  let n := x.num.natAbs * 2 ^ sh
  roundBits c (decide (x.num < 0) != decide (y.num < 0)) (n / d) (x.exp - y.exp - (sh : Int)) (n % d != 0)

/-- `posit_round` of the exact square root of `x > 0` (R127). The radicand is shifted left by an even number of bits
from an even exponent, so that the integer root has more than N bits; the rest of the root is `bits_more`. -/
def roundSqrt (c : Config) (x : Dyad) : BitVec c.N :=
  let sh := 2 * c.N + (x.exp % 2).toNat
  let n := x.num.natAbs * 2 ^ sh
  roundBits c false (isqrt n) ((x.exp - (sh : Int)) / 2) (isqrt n * isqrt n != n)

/-- PADD's result (R123). -/
def positAdd (c : Config) (a b : BitVec c.N) : BitVec c.N :=
  onValues c (fun x y => positRound c (x.add y)) a b

/-- PSUB's result (R124). -/
def positSub (c : Config) (a b : BitVec c.N) : BitVec c.N :=
  onValues c (fun x y => positRound c (x.sub y)) a b

/-- PMUL's result (R125). -/
def positMul (c : Config) (a b : BitVec c.N) : BitVec c.N :=
  onValues c (fun x y => if isZero c a || isZero c b then positZero c else positRound c (x.mul y)) a b

/-- PDIV's result (R126). -/
def positDiv (c : Config) (a b : BitVec c.N) : BitVec c.N :=
  onValues c (fun x y =>
    if isZero c b then positNaR c else if isZero c a then positZero c else roundQuotient c x y) a b

/-- PSQRT's result (R127): NaR for NaR and for every negative operand, whose sign bit is 1. -/
def positSqrt (c : Config) (a : BitVec c.N) : BitVec c.N :=
  if signBit c a then positNaR c
  else onValue c (fun x => if isZero c a then positZero c else roundSqrt c x) a

/-- PRND's result (R128; 90_conflicts.md C8: ties to even). -/
def positNearest (c : Config) (a : BitVec c.N) : BitVec c.N :=
  onValue c (fun x => positRound c (Dyad.ofInt x.nearestEven)) a

/-- PFLR's result (R129). -/
def positFloor (c : Config) (a : BitVec c.N) : BitVec c.N :=
  onValue c (fun x => positRound c (Dyad.ofInt x.floor)) a

/-- PCEIL's result (R130). -/
def positCeil (c : Config) (a : BitVec c.N) : BitVec c.N :=
  onValue c (fun x => positRound c (Dyad.ofInt x.ceil)) a

/-- PNEG: negate (R122). -/
def execPneg (a : Bus) (s : State) : Host.Outcome State Fault Refusal :=
  .next (s.respondPosit (positNeg s.cfg (operandPosit s.cfg a)))

/-- PADD: add (R123). -/
def execPadd (a b : Bus) (s : State) : Host.Outcome State Fault Refusal :=
  .next (s.respondPosit (positAdd s.cfg (operandPosit s.cfg a) (operandPosit s.cfg b)))

/-- PSUB: subtract (R124). -/
def execPsub (a b : Bus) (s : State) : Host.Outcome State Fault Refusal :=
  .next (s.respondPosit (positSub s.cfg (operandPosit s.cfg a) (operandPosit s.cfg b)))

/-- PMUL: multiply (R125). -/
def execPmul (a b : Bus) (s : State) : Host.Outcome State Fault Refusal :=
  .next (s.respondPosit (positMul s.cfg (operandPosit s.cfg a) (operandPosit s.cfg b)))

/-- PDIV: divide (R126). -/
def execPdiv (a b : Bus) (s : State) : Host.Outcome State Fault Refusal :=
  .next (s.respondPosit (positDiv s.cfg (operandPosit s.cfg a) (operandPosit s.cfg b)))

/-- PSQRT: square root (R127). -/
def execPsqrt (a : Bus) (s : State) : Host.Outcome State Fault Refusal :=
  .next (s.respondPosit (positSqrt s.cfg (operandPosit s.cfg a)))

/-- PRND: round to the nearest integer, ties to even (R128). -/
def execPrnd (a : Bus) (s : State) : Host.Outcome State Fault Refusal :=
  .next (s.respondPosit (positNearest s.cfg (operandPosit s.cfg a)))

/-- PFLR: round toward minus infinity (R129). -/
def execPflr (a : Bus) (s : State) : Host.Outcome State Fault Refusal :=
  .next (s.respondPosit (positFloor s.cfg (operandPosit s.cfg a)))

/-- PCEIL: round toward plus infinity (R130). -/
def execPceil (a : Bus) (s : State) : Host.Outcome State Fault Refusal :=
  .next (s.respondPosit (positCeil s.cfg (operandPosit s.cfg a)))

end Sys2Proof.Machine
end

