-- ==== Sys2Proof/Machine/Quire.lean ====
section
/-! DEFINITION. The quire commands (spec/43_quire.md): clear, negate, add or subtract an exact product, round to a
posit, read and write one 64-bit word. -/

namespace Sys2Proof.Machine

/-- `val(a) * val(b) * 2^QF`, an exact integer in a legal configuration (R160). -/
def productUnits (c : Config) (x y : Dyad) : Int := ((x.mul y).shift (c.QF : Int)).floor

/-- The quire after the exact product `a*b` is added, or subtracted when `sub` (R164, R165): QNaR and NaR absorb
(R161), a ZERO operand changes nothing, and the sum is taken modulo `2^QW` (R169). -/
def quireAccumulate (c : Config) (sub : Bool) (q : BitVec c.QW) (a b : BitVec c.N) : BitVec c.QW :=
  match value c a, value c b with
  | some x, some y =>
    if q = quireNaR c then quireNaR c
    else if isZero c a || isZero c b then q
    else BitVec.ofInt c.QW (if sub then q.toInt - productUnits c x y else q.toInt + productUnits c x y)
  | _, _ => quireNaR c

/-- QTOP's result: one rounding of the exact quire value `qs / 2^QF` (R166). -/
def quireToPosit (c : Config) (q : BitVec c.QW) : BitVec c.N :=
  if q = 0 then positZero c
  else if q = quireNaR c then positNaR c
  else positRound c { num := q.toInt, exp := -(c.QF : Int) }

/-- QCLR: `Q <- 0` (R162). -/
def execQclr (s : State) : Host.Outcome State Fault Refusal := .next (s.completeWithQ 0)

/-- QNEG: `Q <- u_QW(-qs)` (R163). -/
def execQneg (s : State) : Host.Outcome State Fault Refusal :=
  .next (s.completeWithQ (BitVec.ofInt s.cfg.QW (-s.q.toInt)))

/-- QMADD: add the exact product a*b into the quire (R164). -/
def execQmadd (a b : Bus) (s : State) : Host.Outcome State Fault Refusal :=
  .next (s.completeWithQ (quireAccumulate s.cfg false s.q (operandPosit s.cfg a) (operandPosit s.cfg b)))

/-- QMSUB: subtract the exact product a*b from the quire (R165). -/
def execQmsub (a b : Bus) (s : State) : Host.Outcome State Fault Refusal :=
  .next (s.completeWithQ (quireAccumulate s.cfg true s.q (operandPosit s.cfg a) (operandPosit s.cfg b)))

/-- QTOP: round the quire to a posit; `Q` is unchanged (R166; 90_conflicts.md C3, C6). -/
def execQtop (s : State) : Host.Outcome State Fault Refusal := .next (s.respondPosit (quireToPosit s.cfg s.q))

/-- QRD: read one 64-bit word of the quire (R167); an index out of range is refused (R45). -/
def execQrd (idx : Half) (s : State) : Host.Outcome State Fault Refusal :=
  if operandIndex idx < s.cfg.quireWords then
    .next (s.respond (Response.ofWord (quireRead s.cfg s.q (operandIndex idx))))
  else .refused (.quireIndexOutOfRange idx)

/-- QWR: write one 64-bit word of the quire (R168); an index out of range is refused (R45). -/
def execQwr (idx : Half) (data : QuireWord) (s : State) : Host.Outcome State Fault Refusal :=
  if operandIndex idx < s.cfg.quireWords then
    .next (s.completeWithQ (quireWrite s.cfg s.q (operandIndex idx) data))
  else .refused (.quireIndexOutOfRange idx)

end Sys2Proof.Machine
end

