-- ==== Sys2Proof/Machine/Dispatch.lean ====
section
/-! DEFINITION. One arm per command of the opcode map (spec/30_encoding.md R64). -/

namespace Sys2Proof.Machine

def exec (i : Instr) (s : State) : Host.Outcome State Fault Refusal :=
  match i with
  | .pdec a => Sys2Proof.Machine.execPdec a s
  | .penc sgn scale frac stk => Sys2Proof.Machine.execPenc sgn scale frac stk s
  | .pneg a => Sys2Proof.Machine.execPneg a s
  | .padd a b => Sys2Proof.Machine.execPadd a b s
  | .psub a b => Sys2Proof.Machine.execPsub a b s
  | .pmul a b => Sys2Proof.Machine.execPmul a b s
  | .pdiv a b => Sys2Proof.Machine.execPdiv a b s
  | .psqrt a => Sys2Proof.Machine.execPsqrt a s
  | .prnd a => Sys2Proof.Machine.execPrnd a s
  | .pflr a => Sys2Proof.Machine.execPflr a s
  | .pceil a => Sys2Proof.Machine.execPceil a s
  | .qclr => Sys2Proof.Machine.execQclr s
  | .qneg => Sys2Proof.Machine.execQneg s
  | .qmadd a b => Sys2Proof.Machine.execQmadd a b s
  | .qmsub a b => Sys2Proof.Machine.execQmsub a b s
  | .qtop => Sys2Proof.Machine.execQtop s
  | .qrd idx => Sys2Proof.Machine.execQrd idx s
  | .qwr idx data => Sys2Proof.Machine.execQwr idx data s

end Sys2Proof.Machine
end

