-- ==== Sys2Proof/Machine/Events.lean ====
section
/-! DEFINITION. What one step does with what the host presents (spec/70_reset_and_hazards.md R221, R225;
spec/60_exceptions.md R202, R204). -/

namespace Sys2Proof.Machine

/-- Why the instance as a whole has no meaning, if it has none: a configuration outside R3, R6 and R7
(93_implementation_defined.md I6), or more than one agent presenting commands to it (R47). That `step` looks at
this before anything presented, and at the configuration first, is DEDUCED (notes/assumptions/10.md, safe). -/
def instanceRefusal (s : State) : Option Refusal :=
  if ¬ s.cfg.Legal then some .illegalConfiguration
  else if 1 < s.hosts then some .severalHosts
  else none

/-- Nothing is presented: "`Q` keeps its value between commands" (R210), and nothing else changes. -/
def idle (s : State) : Host.Outcome State Fault Refusal := .next s

/-- A command is presented: it runs whole on the state that every earlier command left (R44, R46); a reserved opcode
is refused (R67). -/
def runCommand (cmd : Cmd) (s : State) : Host.Outcome State Fault Refusal :=
  match decode cmd with
  | .ok i => exec i s
  | .error (.reservedOpcode op) => .refused (.reservedOpcode op)

/-- A command is presented and a reset arrives while it is in progress: the command is abandoned without a response,
and `Q` is ZERO whatever it had done (R221). A command the host must not present is refused here too (R225). -/
def abandonCommand (cmd : Cmd) (s : State) : Host.Outcome State Fault Refusal :=
  match runCommand cmd s with
  | .next _ => .next s.takeReset
  | .fault f => .fault f
  | .refused r => .refused r

/-- The block's answer to one thing the host does. -/
def takeEvent (ev : HostEvent) (s : State) : Host.Outcome State Fault Refusal :=
  match ev with
  | .command cmd => runCommand cmd s
  | .reset => .next s.takeReset
  | .resetDuring cmd => abandonCommand cmd s

/-- `s` with the command of an opcode-table word presented next. The block fetches nothing (R28, R49): the command
that runs next is the one the host presents next. -/
def presentTableWord (s : State) (nbits w : Nat) : State :=
  { s with pending := .command (Cmd.ofTableWord nbits w) :: s.pending }

end Sys2Proof.Machine
end

