-- ==== Sys2Proof/Machine/Step.lean ====
section
/-! DEFINITION. One step of the machine: the next thing the host does (spec/70_reset_and_hazards.md R225), taken
whole, in the order the host presents it (spec/20_memory.md R46). -/

namespace Sys2Proof.Machine

/-- One step: the first thing the host presents is taken and the block answers it; an instance the spec gives no
meaning to is refused first (R47, I6; that it is first is notes/assumptions/10.md, DEDUCED, safe). -/
def step (s : State) : Host.Outcome State Fault Refusal :=
  match instanceRefusal s with
  | some r => .refused r
  | none =>
    match s.pending with
    | [] => idle s
    | ev :: rest => takeEvent ev { s with pending := rest }

/-- The state in which the host presents next the command that an opcode-table word of `nbits` bits stands for. -/
def State.withFetchWord (s : State) (nbits w : Nat) : State := presentTableWord s nbits w

end Sys2Proof.Machine
end

