-- ==== Sys2Proof/Reals.lean ====
section
/-! DEFINITION. The spec's own account of a posit's value and of `posit_round` on real numbers
(spec/40_codec.md R86, spec/41_packer.md R100 to R105), in the reals and without the machine's packer: what the
claims compare the machine with. Nothing here is part of the machine. -/

namespace Sys2Proof.Reals

/-- `val(p) = (-1)^sign * 2^scale * (1 + f / 2^nf)` for a pattern that is neither ZERO nor NaR, 0 for ZERO, and none
for NaR (R86). -/
noncomputable def value (c : Config) (p : BitVec c.N) : Option ℝ :=
  if p = Machine.positNaR c then none
  else if p = Machine.positZero c then some 0
  else
    some ((if p.msb then -1 else 1) * (2 : ℝ) ^ Machine.scaleOf c p
      * (1 + (Machine.fraction c p : ℝ) / 2 ^ Machine.fractionLength c p))

/-- The real number a dyadic rational is. -/
noncomputable def ofDyad (x : Machine.Dyad) : ℝ := (x.num : ℝ) * (2 : ℝ) ^ x.exp

/-- `reg` of a regime value (R100). -/
def regimeLength (k : ℤ) : ℕ := if 0 ≤ k then k.toNat + 1 else (-k).toNat

/-- The regime string `R(k)` read as an integer: `1^(k+1) ++ 0`, or zeros and a one (R100). -/
def regimeCode (k : ℤ) : ℕ := if 0 ≤ k then 2 ^ (k.toNat + 2) - 2 else 1

/-- `k = s >> ES` with `s = floor(log2(x))`, for `x > 0` (R105). -/
noncomputable def regime (c : Config) (x : ℝ) : ℤ := Int.log 2 x / 2 ^ c.ES

/-- `e = s - k * 2^ES` (R105). -/
noncomputable def exponent (c : Config) (x : ℝ) : ℤ := Int.log 2 x - regime c x * 2 ^ c.ES

/-- `phi = x / 2^s - 1` (R105). -/
noncomputable def phi (x : ℝ) : ℝ := x / (2 : ℝ) ^ Int.log 2 x - 1

/-- The string `T = R(k) ++ bin_ES(e) ++ F` read as a number with the point after its first `N-1` bits, `F` being the
binary expansion of `phi` (R102, R105): its integer part is `M`, its first fraction bit is `bit_n_plus_one`, and the
rest of its fraction is `bits_more` (R103). -/
noncomputable def codePoint (c : Config) (x : ℝ) : ℝ :=
  ((regimeCode (regime c x) : ℝ) + ((exponent c x : ℝ) + phi x) / 2 ^ c.ES)
    * (2 : ℝ) ^ ((c.N : ℤ) - 1 - ((regimeLength (regime c x) : ℤ) + 1))

/-- The magnitude of R104 for the code point `y`: `M`, one more when `bit_n_plus_one` is 1 and `bits_more` is 1 or
`M` is odd. -/
noncomputable def roundCode (y : ℝ) : ℕ :=
  if ⌊2 * y⌋₊ % 2 = 1 ∧ (Int.fract (2 * y) ≠ 0 ∨ ⌊y⌋₊ % 2 = 1) then ⌊y⌋₊ + 1 else ⌊y⌋₊

/-- `posit_round(x)` for `x > 0`: saturation when `reg > N-2` (R101), else R102 to R104. -/
noncomputable def roundPositive (c : Config) (x : ℝ) : BitVec c.N :=
  if c.N - 2 < regimeLength (regime c x) then
    (if 0 ≤ regime c x then Machine.positMaxPos c else Machine.positMinPos c)
  else BitVec.ofNat c.N (roundCode (codePoint c x))

/-- `posit_round(x)` for a real `x` (R105). -/
noncomputable def positRound (c : Config) (x : ℝ) : BitVec c.N :=
  if x = 0 then Machine.positZero c
  else if x < 0 then -roundPositive c (-x)
  else roundPositive c x

end Sys2Proof.Reals
end

