-- ==== Sys2Proof/Safety.lean ====
section
/-! DEFINITION. What a host must do and what a step must keep, in the terms the claims use
(spec/70_reset_and_hazards.md R225, spec/30_encoding.md R62, R66, spec/40_codec.md R81 to R86). -/

namespace Sys2Proof.Machine

/-- The host may present this record: an assigned opcode, and no quire word index out of range (R225). -/
def cmdAllowed (c : Config) (cmd : Cmd) : Bool :=
  match decode cmd with
  | .ok i => i.wellFormed c
  | .error _ => false

/-- The host may do this (R225): "reset at any time", and present any record `cmdAllowed` allows. -/
def HostEvent.allowed (c : Config) : HostEvent → Bool
  | .command cmd => cmdAllowed c cmd
  | .reset => true
  | .resetDuring cmd => cmdAllowed c cmd

/-- The instance is one the spec gives a meaning to: a legal configuration (R3, R7) and at most one host (R47). -/
abbrev State.instanceLegal (s : State) : Prop := s.cfg.Legal ∧ s.hosts ≤ 1

/-- The host keeps to its side of R225, now and in all it will present. -/
abbrev State.wellDriven (s : State) : Prop := s.instanceLegal ∧ s.pending.all (HostEvent.allowed s.cfg) = true

/-- A response fits the instance: a posit result has no bit above `N-1` (R66), and PDEC's fields lie in the ranges of
R81 to R86 and fit together. -/
abbrev Response.fits (c : Config) (r : Response) : Prop :=
  r.r.toNat < 2 ^ c.N ∧ r.tail.toNat < 2 ^ (c.N - 1) ∧ r.e.toNat < 2 ^ c.ES ∧ r.nf.toNat ≤ c.N - 3 - c.ES ∧
  r.m.toNat ≤ c.N - 1 ∧ r.k.toInt.natAbs ≤ c.N - 2 ∧ r.scale.toInt.natAbs ≤ 2 ^ c.ES * (c.N - 2) ∧
  r.scale.toInt = r.k.toInt * 2 ^ c.ES + (r.e.toNat : Int) ∧ ¬ (r.zero = true ∧ r.nar = true)

/-- The invariant of the machine: the configuration is legal, and the response record holds no value or one that
fits. -/
abbrev State.Inv (s : State) : Prop := s.cfg.Legal ∧ ∀ r, s.resp = some r → r.fits s.cfg

/-- `s` after a command whose posit result is `z`: only the response changes, `resp.r` is `zext_32(z)` and every
other field of it 0 (R62, R66). -/
def withResult (s : State) (z : BitVec s.cfg.N) : State :=
  { s with
    resp := some { r := z.setWidth 32, x := 0, zero := false, nar := false, sign := false, k := 0, m := 0, e := 0,
                   nf := 0, scale := 0, tail := 0 } }

/-- `s` after QRD has read the word `v` (R62). -/
def withWord (s : State) (v : QuireWord) : State :=
  { s with
    resp := some { r := 0, x := v, zero := false, nar := false, sign := false, k := 0, m := 0, e := 0,
                   nf := 0, scale := 0, tail := 0 } }

/-- `s` after a command that leaves `v` in `Q`: its whole response is 0 (R62). -/
def withQuire (s : State) (v : BitVec s.cfg.QW) : State :=
  { s with
    q := v
    resp := some { r := 0, x := 0, zero := false, nar := false, sign := false, k := 0, m := 0, e := 0,
                   nf := 0, scale := 0, tail := 0 } }

/-- The instance with another latency (R226). -/
def withLatency (n : Nat) (s : State) : State :=
  { cfg := { s.cfg with LAT := n }, q := s.q, resp := s.resp, pending := s.pending, hosts := s.hosts }

end Sys2Proof.Machine
end

