-- ==== Sys2Proof/Certificates/Slice0/Obligations.lean ====
section
/-! DEFINITION. The statements for the provers. Each is made for every legal configuration, so for every instance of
the block, and not for the profile of `State.reset`. -/

open Sys2Proof Sys2Proof.Machine

/-! ### Encoding -/

/-- R64: the opcode map, row by row, on records whose other fields are 0. -/
def Obligations.EveryTableWordDecodesToItsCommand : Prop :=
  decodeTableWord 8 0x01 = some (.pdec 0) ∧ decodeTableWord 8 0x02 = some (.penc false 0 0 false) ∧
  decodeTableWord 8 0x03 = some (.pneg 0) ∧ decodeTableWord 8 0x10 = some (.padd 0 0) ∧
  decodeTableWord 8 0x11 = some (.psub 0 0) ∧ decodeTableWord 8 0x12 = some (.pmul 0 0) ∧
  decodeTableWord 8 0x13 = some (.pdiv 0 0) ∧ decodeTableWord 8 0x14 = some (.psqrt 0) ∧
  decodeTableWord 8 0x15 = some (.prnd 0) ∧ decodeTableWord 8 0x16 = some (.pflr 0) ∧
  decodeTableWord 8 0x17 = some (.pceil 0) ∧ decodeTableWord 8 0x20 = some .qclr ∧
  decodeTableWord 8 0x21 = some .qneg ∧ decodeTableWord 8 0x22 = some (.qmadd 0 0) ∧
  decodeTableWord 8 0x23 = some (.qmsub 0 0) ∧ decodeTableWord 8 0x24 = some .qtop ∧
  decodeTableWord 8 0x25 = some (.qrd 0) ∧ decodeTableWord 8 0x26 = some (.qwr 0 0)

/-- R64: every record with an assigned opcode decodes to the opcode's command, with the operands the map names taken
from the record's fields. -/
def Obligations.OpcodesSelectTheCommandAndItsFields : Prop :=
  ∀ cmd : Cmd,
    (cmd.op = 0x01 → decode cmd = .ok (.pdec cmd.a)) ∧
    (cmd.op = 0x02 → decode cmd = .ok (.penc cmd.s cmd.c cmd.d cmd.t)) ∧
    (cmd.op = 0x03 → decode cmd = .ok (.pneg cmd.a)) ∧
    (cmd.op = 0x10 → decode cmd = .ok (.padd cmd.a cmd.b)) ∧
    (cmd.op = 0x11 → decode cmd = .ok (.psub cmd.a cmd.b)) ∧
    (cmd.op = 0x12 → decode cmd = .ok (.pmul cmd.a cmd.b)) ∧
    (cmd.op = 0x13 → decode cmd = .ok (.pdiv cmd.a cmd.b)) ∧
    (cmd.op = 0x14 → decode cmd = .ok (.psqrt cmd.a)) ∧
    (cmd.op = 0x15 → decode cmd = .ok (.prnd cmd.a)) ∧
    (cmd.op = 0x16 → decode cmd = .ok (.pflr cmd.a)) ∧
    (cmd.op = 0x17 → decode cmd = .ok (.pceil cmd.a)) ∧
    (cmd.op = 0x20 → decode cmd = .ok .qclr) ∧
    (cmd.op = 0x21 → decode cmd = .ok .qneg) ∧
    (cmd.op = 0x22 → decode cmd = .ok (.qmadd cmd.a cmd.b)) ∧
    (cmd.op = 0x23 → decode cmd = .ok (.qmsub cmd.a cmd.b)) ∧
    (cmd.op = 0x24 → decode cmd = .ok .qtop) ∧
    (cmd.op = 0x25 → decode cmd = .ok (.qrd cmd.c)) ∧
    (cmd.op = 0x26 → decode cmd = .ok (.qwr cmd.c cmd.d))

/-- R69, R64: the record of a command, and its bits in the model's own numbering (notes/assumptions/5.md), decode to
that command with every operand; and a record decodes to a command only if it has that command's opcode. -/
def Obligations.EncodedCommandDecodesToItself : Prop :=
  (∀ i : Instr, decode (encode i) = .ok i ∧ decodeTableWord Cmd.bits (encode i).toWord = some i) ∧
  (∀ cmd : Cmd, Cmd.ofWord cmd.toWord = cmd ∧ cmd.toWord < 2 ^ Cmd.bits) ∧
  (∀ (cmd : Cmd) (i : Instr), decode cmd = .ok i → (encode i).op = cmd.op)

/-- R61: "A field a command does not use is ignored by it", with the table's column of users of each field. -/
def Obligations.UnusedFieldsAreIgnored : Prop :=
  ∀ cmd cmd' : Cmd, cmd.op = cmd'.op →
    (cmd.op ∈ ([0x01, 0x03, 0x10, 0x11, 0x12, 0x13, 0x14, 0x15, 0x16, 0x17, 0x22, 0x23] : List Opcode) →
      cmd.a = cmd'.a) →
    (cmd.op ∈ ([0x10, 0x11, 0x12, 0x13, 0x22, 0x23] : List Opcode) → cmd.b = cmd'.b) →
    (cmd.op = 0x02 → cmd.s = cmd'.s ∧ cmd.t = cmd'.t) →
    (cmd.op ∈ ([0x02, 0x25, 0x26] : List Opcode) → cmd.c = cmd'.c) →
    (cmd.op ∈ ([0x02, 0x26] : List Opcode) → cmd.d = cmd'.d) →
    ∀ s : State, decode cmd = decode cmd' ∧ runCommand cmd s = runCommand cmd' s

/-- R65: `cmd.a[31:N]` and `cmd.b[31:N]` are ignored by every command that takes a posit operand. -/
def Obligations.BusBitsAboveThePositAreIgnored : Prop :=
  ∀ (s : State) (a a' b b' : Bus), (∀ j, j < s.cfg.N → a.getLsbD j = a'.getLsbD j) →
    (∀ j, j < s.cfg.N → b.getLsbD j = b'.getLsbD j) →
    exec (.pdec a) s = exec (.pdec a') s ∧ exec (.pneg a) s = exec (.pneg a') s ∧
    exec (.psqrt a) s = exec (.psqrt a') s ∧ exec (.prnd a) s = exec (.prnd a') s ∧
    exec (.pflr a) s = exec (.pflr a') s ∧ exec (.pceil a) s = exec (.pceil a') s ∧
    exec (.padd a b) s = exec (.padd a' b') s ∧ exec (.psub a b) s = exec (.psub a' b') s ∧
    exec (.pmul a b) s = exec (.pmul a' b') s ∧ exec (.pdiv a b) s = exec (.pdiv a' b') s ∧
    exec (.qmadd a b) s = exec (.qmadd a' b') s ∧ exec (.qmsub a b) s = exec (.qmsub a' b') s

/-- R67: the 238 reserved opcodes, and only they, are refused for their opcode, in every state of a legal instance;
and every value of the fields of an assigned one is answered, except a QRD or QWR index out of range. -/
def Obligations.ReservedOpcodesAreRefused : Prop :=
  ((List.range 256).filter fun n => ! opcodeTable.any fun r => r.pattern.toNat == n).length = 238 ∧
  ∀ (s : State) (cmd : Cmd) (rest : List HostEvent), s.instanceLegal → s.pending = .command cmd :: rest →
    (step s = .refused (.reservedOpcode cmd.op) ↔
      (cmd.op.toNat = 0x00 ∨ (0x04 ≤ cmd.op.toNat ∧ cmd.op.toNat ≤ 0x0F) ∨
        (0x18 ≤ cmd.op.toNat ∧ cmd.op.toNat ≤ 0x1F) ∨ (0x27 ≤ cmd.op.toNat ∧ cmd.op.toNat ≤ 0xFF))) ∧
    (∀ i : Instr, decode cmd = .ok i → (∃ t, step s = .next t) ∨
      ((cmd.op = 0x25 ∨ cmd.op = 0x26) ∧ s.cfg.quireWords ≤ cmd.c.toNat))

/-! ### The machine -/

/-- R46, R61: a step of a legal instance whose host presents a command runs exactly the command its record decodes
to, on the state that every earlier command left, with the rest of what the host presents still to come.
The list of what is presented is the model's (DESIGN CHOICE, notes/assumptions/6.md). -/
def Obligations.StepRunsThePresentedCommand : Prop :=
  ∀ (s : State) (cmd : Cmd) (rest : List HostEvent) (i : Instr), s.instanceLegal →
    s.pending = .command cmd :: rest → decode cmd = .ok i → step s = exec i { s with pending := rest }

/-- R220, R222: reset sets `Q` to 0, the response record holds no value, and the parameters are as built. -/
def Obligations.ResetClearsTheQuire : Prop :=
  (∀ c : Config, (State.resetFor c).q = 0 ∧ (State.resetFor c).resp = none ∧ (State.resetFor c).cfg = c) ∧
  ∀ (s : State) (rest : List HostEvent), s.instanceLegal → s.pending = .reset :: rest →
    ∃ t : State, step s = .next t ∧ t.q = 0 ∧ t.resp = none ∧ t.cfg = s.cfg

/-- R221: a reset during a command the host may present abandons it: no response is given for it, and `Q` is ZERO
whatever the command had done. -/
def Obligations.ResetAbandonsTheCommandInProgress : Prop :=
  ∀ (s : State) (cmd : Cmd) (rest : List HostEvent), s.instanceLegal → cmdAllowed s.cfg cmd = true →
    s.pending = .resetDuring cmd :: rest →
    ∃ t : State, step s = .next t ∧ t.q = 0 ∧ t.resp = none ∧ t.cfg = s.cfg

/-- R47: an instance that more than one host drives is refused, and 93_implementation_defined.md I6: so is a
configuration outside R3, R6 and R7. Neither says more: the field `hosts` is the model's own (DESIGN CHOICE,
notes/assumptions/8.md), and that `step` refuses such an instance before it looks at what is presented, a reset or
nothing included, and the configuration before the hosts, is the model's (DEDUCED, notes/assumptions/10.md). -/
def Obligations.UnspecifiedInstancesAreRefused : Prop :=
  ∀ s : State, (¬ s.cfg.Legal → step s = .refused .illegalConfiguration) ∧
    (s.cfg.Legal → 1 < s.hosts → step s = .refused .severalHosts)

/-- R210: with nothing presented, `Q` and all else keep their value. That the model has such a step is its own choice
(notes/assumptions/4.md). -/
def Obligations.IdleStepKeepsTheState : Prop :=
  ∀ s : State, s.instanceLegal → s.pending = [] → step s = .next s

/-- R67, R45, R202: a command is answered exactly when its operands are legal, that is for every operand but a quire
word index out of range, and is then never a fault; otherwise it is refused for that index.
That this covers unspecified instances too is because `exec` does not look at them (DEDUCED, notes/assumptions/10.md). -/
def Obligations.CommandsCompleteExactlyWhenWellFormed : Prop :=
  ∀ (i : Instr) (s : State),
    (i.wellFormed s.cfg = true → ∃ t, exec i s = .next t) ∧
    (i.wellFormed s.cfg = false →
      ∃ idx : Half, ((i = .qrd idx) ∨ ∃ d, i = .qwr idx d) ∧ s.cfg.quireWords ≤ idx.toNat ∧
        exec i s = .refused (.quireIndexOutOfRange idx))

/-- R44, R62, R20: what a command changes. QCLR, QNEG, QMADD, QMSUB and QWR change `Q` and answer with a response that
is 0 in every field; every other command leaves `Q` unchanged and changes only the response record.
The fields beside `Q` are the model's (DESIGN CHOICE, notes/assumptions/2.md, 6.md, 7.md, 8.md). -/
def Obligations.CommandsChangeOnlyTheirOwnState : Prop :=
  ∀ (i : Instr) (s t : State), exec i s = .next t →
    match i with
    | .qclr => ∃ v, t = withQuire s v
    | .qneg => ∃ v, t = withQuire s v
    | .qmadd _ _ => ∃ v, t = withQuire s v
    | .qmsub _ _ => ∃ v, t = withQuire s v
    | .qwr _ _ => ∃ v, t = withQuire s v
    | .qrd _ => ∃ v, t = withWord s v
    | .pdec _ => ∃ r : Response, r.r = 0 ∧ t = { s with resp := some r }
    | .penc _ _ _ _ => ∃ z, t = withResult s z
    | .pneg _ => ∃ z, t = withResult s z
    | .padd _ _ => ∃ z, t = withResult s z
    | .psub _ _ => ∃ z, t = withResult s z
    | .pmul _ _ => ∃ z, t = withResult s z
    | .pdiv _ _ => ∃ z, t = withResult s z
    | .psqrt _ => ∃ z, t = withResult s z
    | .prnd _ => ∃ z, t = withResult s z
    | .pflr _ => ∃ z, t = withResult s z
    | .pceil _ => ∃ z, t = withResult s z
    | .qtop => ∃ z, t = withResult s z

/-- R31, R46: a command's response and the quire it leaves depend on `Q` and the command alone: not on the response
record or on what the host presents later. That they do not depend on how many hosts there are is the model's own:
the count is its field (DESIGN CHOICE, notes/assumptions/8.md), and `exec` does not look at the instance (DEDUCED,
notes/assumptions/10.md). -/
def Obligations.CommandsDependOnTheQuireAlone : Prop :=
  ∀ (i : Instr) (s t : State) (r : Option Response) (p : List HostEvent) (h : Nat), exec i s = .next t →
    exec i { s with resp := r, pending := p, hosts := h } = .next { t with pending := p, hosts := h }

/-- R226: no step depends on the latency: an instance with another latency takes the same step.
That `LAT` is one number is the model's (DESIGN CHOICE, notes/assumptions/3.md). -/
def Obligations.NoStepDependsOnTheLatency : Prop :=
  ∀ (s t : State) (n : Nat), 1 ≤ n → step s = .next t → step (withLatency n s) = .next (withLatency n t)

/-- R222, R30: no step changes the parameters of the instance; and, of the model's own fields (notes/assumptions/6.md,
8.md, 9.md), a step keeps the number of hosts and takes exactly the first thing presented. -/
def Obligations.StepsKeepTheConfiguration : Prop :=
  ∀ s t : State, step s = .next t → t.cfg = s.cfg ∧ t.hosts = s.hosts ∧ t.pending = s.pending.tail

/-- R66, R81 to R86: every step keeps the invariant that the configuration is legal and the response, if there is one,
fits the instance: no bit of a posit result above N-1, and PDEC's fields in their ranges with
`scale = k*2^ES + e`.
That a response stays after its command is the model's (DESIGN CHOICE, notes/assumptions/4.md, 7.md). -/
def Obligations.StepsKeepTheInvariant : Prop :=
  ∀ s t : State, s.Inv → step s = .next t → t.Inv

/-- R222: the invariant holds right after reset, in every legal instance.
The profile of `State.reset` is the model's (DESIGN CHOICE, notes/assumptions/1.md). -/
def Obligations.ResetMeetsTheInvariant : Prop :=
  State.reset.Inv ∧ ∀ c : Config, c.Legal → (State.resetFor c).Inv

/-- R225, R202, R200: the block owes a host that keeps to its side an answer to everything: no run of any length is
refused or faults. The model's own in it (DESIGN CHOICE): with nothing left to present the run goes on by idle steps
(notes/assumptions/4.md); what is presented is a list, taken one element a step (notes/assumptions/6.md), a reset during
a command being one element (notes/assumptions/9.md); hosts are counted in a field (notes/assumptions/8.md). -/
def Obligations.WellDrivenRunsAreNeverRefused : Prop :=
  ∀ (s : State) (n : Nat), s.wellDriven →
    ∃ t, Host.Core.run Sys2Proof.core n s = .next t ∧ t.wellDriven ∧ t.cfg = s.cfg ∧ t.pending = s.pending.drop n

/-! ### The codec -/

/-- R88, with R80 to R85: PDEC completes with every operand and changes only the response. ZERO and NaR report only
their flag. For any other pattern the response splits the magnitude `u` as the rules say, bit by bit: the run of `m`
equal bits, its terminator, the bits after it left-justified in N-1 bits in `tail`, the top ES bits of `tail` in `e`,
the rest of `tail` left-justified in 64 bits in `x`. -/
def Obligations.PdecReportsTheFields : Prop :=
  (∀ cmd : Cmd, cmd.op = 0x01 → decode cmd = .ok (.pdec cmd.a)) ∧
  ∀ (s : State) (a : Bus), s.cfg.Legal →
    (a.setWidth s.cfg.N = positZero s.cfg →
      exec (.pdec a) s = .next { s with
        resp := some { r := 0, x := 0, zero := true, nar := false, sign := false, k := 0, m := 0, e := 0, nf := 0,
                       scale := 0, tail := 0 } }) ∧
    (a.setWidth s.cfg.N = positNaR s.cfg →
      exec (.pdec a) s = .next { s with
        resp := some { r := 0, x := 0, zero := false, nar := true, sign := false, k := 0, m := 0, e := 0, nf := 0,
                       scale := 0, tail := 0 } }) ∧
    ∀ p u : BitVec s.cfg.N, p = a.setWidth s.cfg.N → p ≠ positZero s.cfg → p ≠ positNaR s.cfg →
    u = (if p.msb then -p else p) →
    ∃ r : Response, exec (.pdec a) s = .next { s with resp := some r } ∧
      r.r = 0 ∧ r.zero = false ∧ r.nar = false ∧ r.sign = p.msb ∧
      1 ≤ r.m.toNat ∧ r.m.toNat ≤ s.cfg.N - 1 ∧
      (∀ j, j < r.m.toNat → u.getLsbD (s.cfg.N - 2 - j) = u.getLsbD (s.cfg.N - 2)) ∧
      (r.m.toNat < s.cfg.N - 1 → u.getLsbD (s.cfg.N - 2 - r.m.toNat) = ! u.getLsbD (s.cfg.N - 2)) ∧
      r.k.toInt = (if u.getLsbD (s.cfg.N - 2) then (r.m.toNat : Int) - 1 else -(r.m.toNat : Int)) ∧
      (∀ j, j < s.cfg.N - 1 → r.tail.getLsbD (s.cfg.N - 2 - j)
        = (decide (j < s.cfg.N - 2 - r.m.toNat) && u.getLsbD (s.cfg.N - 3 - r.m.toNat - j))) ∧
      r.tail.toNat < 2 ^ (s.cfg.N - 1) ∧
      r.e.toNat = r.tail.toNat / 2 ^ (s.cfg.N - 1 - s.cfg.ES) ∧
      r.nf.toNat = s.cfg.N - 2 - r.m.toNat - s.cfg.ES ∧
      r.x.toNat = r.tail.toNat % 2 ^ (s.cfg.N - 1 - s.cfg.ES) * 2 ^ (64 - (s.cfg.N - 1 - s.cfg.ES)) ∧
      r.scale.toInt = r.k.toInt * 2 ^ s.cfg.ES + (r.e.toNat : Int)

/-- R86, R88, R108: PDEC's `sign`, `scale` and `x` denote the operand's value, `(-1)^sign * 2^scale * (1 + x/2^64)`. -/
def Obligations.PdecFieldsDenoteTheValue : Prop :=
  ∀ (s : State) (a : Bus), s.cfg.Legal →
    a.setWidth s.cfg.N ≠ positZero s.cfg → a.setWidth s.cfg.N ≠ positNaR s.cfg →
    ∃ r : Response, exec (.pdec a) s = .next { s with resp := some r } ∧
      Reals.value s.cfg (a.setWidth s.cfg.N)
        = some ((if r.sign then -1 else 1) * (2 : ℝ) ^ r.scale.toInt * (1 + (r.x.toNat : ℝ) / 2 ^ 64))

/-- R87 (3), R108: PENC of PDEC's `sign`, `scale` and `x` with sticky 0 returns the pattern, for every pattern but
ZERO and NaR, in every legal instance. -/
def Obligations.PencOfPdecReturnsThePattern : Prop :=
  ∀ (s : State) (a : Bus), s.cfg.Legal →
    a.setWidth s.cfg.N ≠ positZero s.cfg → a.setWidth s.cfg.N ≠ positNaR s.cfg →
    ∃ r : Response, exec (.pdec a) s = .next { s with resp := some r } ∧
      exec (.penc r.sign r.scale r.x false) { s with resp := some r } = .next (withResult s (a.setWidth s.cfg.N))

/-- R25, R87 (1): the value of a pattern is strictly increasing in the pattern read as a signed integer, over every
pattern but NaR, and NaR is below every other. -/
def Obligations.PatternsAreOrderedLikeTheirValues : Prop :=
  ∀ (c : Config) (p q : BitVec c.N), c.Legal →
    (∀ x y : ℝ, Reals.value c p = some x → Reals.value c q = some y → (x < y ↔ p.toInt < q.toInt)) ∧
    (p ≠ positNaR c → (positNaR c).toInt < p.toInt)

/-- R23: the pattern constants as N-bit unsigned values, and their values, `useed^(N-2)` being
`(2^(2^ES))^(N-2)`. -/
def Obligations.PatternConstantsHaveTheirValues : Prop :=
  ∀ c : Config, c.Legal →
    (positZero c).toNat = 0 ∧ (positNaR c).toNat = 2 ^ (c.N - 1) ∧ (positOne c).toNat = 2 ^ (c.N - 2) ∧
    (positMaxPos c).toNat = 2 ^ (c.N - 1) - 1 ∧ (positMinPos c).toNat = 1 ∧
    (-positOne c).toNat = 2 ^ (c.N - 1) + 2 ^ (c.N - 2) ∧ (-positMaxPos c).toNat = 2 ^ (c.N - 1) + 1 ∧
    (-positMinPos c).toNat = 2 ^ c.N - 1 ∧
    Reals.value c (positZero c) = some 0 ∧ Reals.value c (positNaR c) = none ∧
    Reals.value c (positOne c) = some 1 ∧
    Reals.value c (positMaxPos c) = some ((c.useed : ℝ) ^ (c.N - 2)) ∧
    Reals.value c (positMinPos c) = some ((c.useed : ℝ) ^ (c.N - 2))⁻¹ ∧
    Reals.value c (-positOne c) = some (-1) ∧
    Reals.value c (-positMaxPos c) = some (-(c.useed : ℝ) ^ (c.N - 2)) ∧
    Reals.value c (-positMinPos c) = some (-((c.useed : ℝ) ^ (c.N - 2))⁻¹) ∧
    (∀ p : BitVec c.N, Reals.value c p = none → p = positNaR c)

/-! ### The packer -/

/-- R105: the machine's `posit_round` of a dyadic rational is the spec's, in the reals. -/
def Obligations.MachineRoundsLikeTheReals : Prop :=
  ∀ (c : Config) (x : Dyad), c.Legal → positRound c x = Reals.positRound c (Reals.ofDyad x)

/-- R106: no flush to zero and no overflow to NaR; negation; monotone; exact on posit values; saturation at both
ends. -/
def Obligations.PositRoundHasItsProperties : Prop :=
  ∀ c : Config, c.Legal →
    (∀ x : ℝ, Reals.positRound c x ≠ positNaR c ∧ (Reals.positRound c x = positZero c ↔ x = 0)) ∧
    (∀ x : ℝ, Reals.positRound c (-x) = -Reals.positRound c x) ∧
    (∀ x y : ℝ, x ≤ y → (Reals.positRound c x).toInt ≤ (Reals.positRound c y).toInt) ∧
    (∀ (p : BitVec c.N) (x : ℝ), Reals.value c p = some x → Reals.positRound c x = p) ∧
    (∀ x M : ℝ, Reals.value c (positMaxPos c) = some M → M ≤ x → Reals.positRound c x = positMaxPos c) ∧
    (∀ x m : ℝ, Reals.value c (positMinPos c) = some m → 0 < x → x < m → Reals.positRound c x = positMinPos c)

/-- R108: PENC with sticky 0 completes with `posit_round` of `(-1)^sgn * 2^scale * (1 + frac/2^64)`; with sticky 1,
with `posit_round` of every real a positive amount below `2^(scale-64)` further from zero. -/
def Obligations.PencRoundsTheRealItsOperandsDenote : Prop :=
  (∀ cmd : Cmd, cmd.op = 0x02 → decode cmd = .ok (.penc cmd.s cmd.c cmd.d cmd.t)) ∧
  ∀ (s : State) (sgn : Bool) (scale : Half) (frac : QuireWord), s.cfg.Legal →
    ∀ base : ℝ, base = (2 : ℝ) ^ scale.toInt * (1 + (frac.toNat : ℝ) / 2 ^ 64) →
    exec (.penc sgn scale frac false) s
      = .next (withResult s (Reals.positRound s.cfg (if sgn then -base else base))) ∧
    ∀ y : ℝ, base < y → y < base + (2 : ℝ) ^ (scale.toInt - 64) →
      exec (.penc sgn scale frac true) s = .next (withResult s (Reals.positRound s.cfg (if sgn then -y else y)))

/-- R104, R108: PENC completes with every operand, and its result is never ZERO and never NaR: its magnitude is from 1
to MAXPOS, and it has the given sign. -/
def Obligations.PencNeverGivesZeroOrNaR : Prop :=
  ∀ (s : State) (sgn : Bool) (scale : Half) (frac : QuireWord) (stk : Bool), s.cfg.Legal →
    ∃ z mag : BitVec s.cfg.N, exec (.penc sgn scale frac stk) s = .next (withResult s z) ∧
      z = (if sgn then -mag else mag) ∧ 1 ≤ mag.toNat ∧ mag.toNat ≤ 2 ^ (s.cfg.N - 1) - 1 ∧
      z ≠ positZero s.cfg ∧ z ≠ positNaR s.cfg ∧ z.msb = sgn

/-- R101, R108: a scale outside `-2^ES*(N-2) .. 2^ES*(N-2)-1` saturates to MAXPOS or MINPOS with the given sign,
whatever the fraction and the sticky bit. -/
def Obligations.PencSaturatesOutsideTheScaleRange : Prop :=
  ∀ (s : State) (sgn : Bool) (scale : Half) (frac : QuireWord) (stk : Bool), s.cfg.Legal →
    ((2 : Int) ^ s.cfg.ES * ((s.cfg.N : Int) - 2) ≤ scale.toInt →
      exec (.penc sgn scale frac stk) s
        = .next (withResult s (if sgn then -positMaxPos s.cfg else positMaxPos s.cfg))) ∧
    (scale.toInt < -((2 : Int) ^ s.cfg.ES * ((s.cfg.N : Int) - 2)) →
      exec (.penc sgn scale frac stk) s
        = .next (withResult s (if sgn then -positMinPos s.cfg else positMinPos s.cfg)))

/-! ### Posit arithmetic -/

/-- R122, R26: PNEG completes with the two's-complement negation of the pattern, whose value is the negated value;
ZERO and NaR are their own negations, and no pattern but ZERO denotes 0. -/
def Obligations.PnegNegatesPatternAndValue : Prop :=
  (∀ cmd : Cmd, cmd.op = 0x03 → decode cmd = .ok (.pneg cmd.a)) ∧
  ∀ (s : State) (a : Bus), s.cfg.Legal →
    exec (.pneg a) s = .next (withResult s (-(a.setWidth s.cfg.N))) ∧
    (∀ x : ℝ, Reals.value s.cfg (a.setWidth s.cfg.N) = some x →
      Reals.value s.cfg (-(a.setWidth s.cfg.N)) = some (-x)) ∧
    -positZero s.cfg = positZero s.cfg ∧ -positNaR s.cfg = positNaR s.cfg ∧
    (∀ p : BitVec s.cfg.N, Reals.value s.cfg p = some 0 → p = positZero s.cfg)

/-- R123, R120: PADD completes with `posit_round` of the exact sum; with a NaR operand, with NaR. -/
def Obligations.PaddRoundsTheExactSum : Prop :=
  (∀ cmd : Cmd, cmd.op = 0x10 → decode cmd = .ok (.padd cmd.a cmd.b)) ∧
  ∀ (s : State) (a b : Bus), s.cfg.Legal →
    (∀ x y : ℝ, Reals.value s.cfg (a.setWidth s.cfg.N) = some x → Reals.value s.cfg (b.setWidth s.cfg.N) = some y →
      exec (.padd a b) s = .next (withResult s (Reals.positRound s.cfg (x + y)))) ∧
    (a.setWidth s.cfg.N = positNaR s.cfg ∨ b.setWidth s.cfg.N = positNaR s.cfg →
      exec (.padd a b) s = .next (withResult s (positNaR s.cfg)))

/-- R124, R120: PSUB completes with `posit_round` of the exact difference; with a NaR operand, with NaR. -/
def Obligations.PsubRoundsTheExactDifference : Prop :=
  (∀ cmd : Cmd, cmd.op = 0x11 → decode cmd = .ok (.psub cmd.a cmd.b)) ∧
  ∀ (s : State) (a b : Bus), s.cfg.Legal →
    (∀ x y : ℝ, Reals.value s.cfg (a.setWidth s.cfg.N) = some x → Reals.value s.cfg (b.setWidth s.cfg.N) = some y →
      exec (.psub a b) s = .next (withResult s (Reals.positRound s.cfg (x - y)))) ∧
    (a.setWidth s.cfg.N = positNaR s.cfg ∨ b.setWidth s.cfg.N = positNaR s.cfg →
      exec (.psub a b) s = .next (withResult s (positNaR s.cfg)))

/-- R125, R120, R121: PMUL completes with `posit_round` of the exact product, which is ZERO when an operand is ZERO;
with a NaR operand, a ZERO beside it or not, with NaR. -/
def Obligations.PmulRoundsTheExactProduct : Prop :=
  (∀ cmd : Cmd, cmd.op = 0x12 → decode cmd = .ok (.pmul cmd.a cmd.b)) ∧
  ∀ (s : State) (a b : Bus), s.cfg.Legal →
    (∀ x y : ℝ, Reals.value s.cfg (a.setWidth s.cfg.N) = some x → Reals.value s.cfg (b.setWidth s.cfg.N) = some y →
      exec (.pmul a b) s = .next (withResult s (Reals.positRound s.cfg (x * y)))) ∧
    (a.setWidth s.cfg.N = positNaR s.cfg ∨ b.setWidth s.cfg.N = positNaR s.cfg →
      exec (.pmul a b) s = .next (withResult s (positNaR s.cfg)))

/-- R126, R120: PDIV completes with `posit_round` of the exact quotient when neither operand is NaR and the divisor is
not ZERO; otherwise with NaR, `0/0` included. -/
def Obligations.PdivRoundsTheExactQuotient : Prop :=
  (∀ cmd : Cmd, cmd.op = 0x13 → decode cmd = .ok (.pdiv cmd.a cmd.b)) ∧
  ∀ (s : State) (a b : Bus), s.cfg.Legal →
    (∀ x y : ℝ, Reals.value s.cfg (a.setWidth s.cfg.N) = some x → Reals.value s.cfg (b.setWidth s.cfg.N) = some y →
      y ≠ 0 → exec (.pdiv a b) s = .next (withResult s (Reals.positRound s.cfg (x / y)))) ∧
    (a.setWidth s.cfg.N = positNaR s.cfg ∨ b.setWidth s.cfg.N = positNaR s.cfg ∨
        b.setWidth s.cfg.N = positZero s.cfg →
      exec (.pdiv a b) s = .next (withResult s (positNaR s.cfg)))

/-- R127, R120: PSQRT completes with `posit_round` of the exact square root of a value that is not negative; with NaR
for NaR and for every negative value. -/
def Obligations.PsqrtRoundsTheExactRoot : Prop :=
  (∀ cmd : Cmd, cmd.op = 0x14 → decode cmd = .ok (.psqrt cmd.a)) ∧
  ∀ (s : State) (a : Bus), s.cfg.Legal →
    (∀ x : ℝ, Reals.value s.cfg (a.setWidth s.cfg.N) = some x →
      (0 ≤ x → exec (.psqrt a) s = .next (withResult s (Reals.positRound s.cfg (Real.sqrt x)))) ∧
      (x < 0 → exec (.psqrt a) s = .next (withResult s (positNaR s.cfg)))) ∧
    (a.setWidth s.cfg.N = positNaR s.cfg → exec (.psqrt a) s = .next (withResult s (positNaR s.cfg)))

/-- R128: PRND completes with a pattern whose value is exactly the integer nearest the operand, ties to the even one;
NaR gives NaR. -/
def Obligations.PrndGivesTheNearestInteger : Prop :=
  (∀ cmd : Cmd, cmd.op = 0x15 → decode cmd = .ok (.prnd cmd.a)) ∧
  ∀ (s : State) (a : Bus), s.cfg.Legal →
    (∀ x : ℝ, Reals.value s.cfg (a.setWidth s.cfg.N) = some x →
      ∃ (n : ℤ) (z : BitVec s.cfg.N), |x - n| ≤ 1 / 2 ∧ (|x - n| = 1 / 2 → Even n) ∧
        exec (.prnd a) s = .next (withResult s z) ∧ z = Reals.positRound s.cfg n ∧
        Reals.value s.cfg z = some (n : ℝ)) ∧
    (a.setWidth s.cfg.N = positNaR s.cfg → exec (.prnd a) s = .next (withResult s (positNaR s.cfg)))

/-- R129, R130: PFLR and PCEIL complete with a pattern whose value is exactly the floor and the ceiling of the
operand; NaR gives NaR. -/
def Obligations.PflrAndPceilGiveFloorAndCeiling : Prop :=
  (∀ cmd : Cmd, cmd.op = 0x16 → decode cmd = .ok (.pflr cmd.a)) ∧
  (∀ cmd : Cmd, cmd.op = 0x17 → decode cmd = .ok (.pceil cmd.a)) ∧
  ∀ (s : State) (a : Bus), s.cfg.Legal →
    (∀ x : ℝ, Reals.value s.cfg (a.setWidth s.cfg.N) = some x →
      ∃ f g : BitVec s.cfg.N,
        exec (.pflr a) s = .next (withResult s f) ∧ f = Reals.positRound s.cfg (⌊x⌋ : ℤ) ∧
        Reals.value s.cfg f = some ((⌊x⌋ : ℤ) : ℝ) ∧
        exec (.pceil a) s = .next (withResult s g) ∧ g = Reals.positRound s.cfg (⌈x⌉ : ℤ) ∧
        Reals.value s.cfg g = some ((⌈x⌉ : ℤ) : ℝ)) ∧
    (a.setWidth s.cfg.N = positNaR s.cfg →
      exec (.pflr a) s = .next (withResult s (positNaR s.cfg)) ∧
      exec (.pceil a) s = .next (withResult s (positNaR s.cfg)))

/-- R201: each condition of the table yields NaR, in every command the table lists for it: a NaR operand, first or
second; a ZERO divisor, `0/0` included; a negative operand of PSQRT; a NaR operand or QNaR in QMADD and QMSUB; and
QNaR in QTOP. PDEC reports NaR in `resp.nar`, and PENC never produces NaR. -/
def Obligations.EveryNaRConditionGivesNaR : Prop :=
  ∀ (s : State) (a b : Bus), s.cfg.Legal →
    (a.setWidth s.cfg.N = positNaR s.cfg →
      exec (.padd a b) s = .next (withResult s (positNaR s.cfg)) ∧
      exec (.padd b a) s = .next (withResult s (positNaR s.cfg)) ∧
      exec (.psub a b) s = .next (withResult s (positNaR s.cfg)) ∧
      exec (.psub b a) s = .next (withResult s (positNaR s.cfg)) ∧
      exec (.pmul a b) s = .next (withResult s (positNaR s.cfg)) ∧
      exec (.pmul b a) s = .next (withResult s (positNaR s.cfg)) ∧
      exec (.pdiv a b) s = .next (withResult s (positNaR s.cfg)) ∧
      exec (.pdiv b a) s = .next (withResult s (positNaR s.cfg)) ∧
      exec (.psqrt a) s = .next (withResult s (positNaR s.cfg)) ∧
      exec (.prnd a) s = .next (withResult s (positNaR s.cfg)) ∧
      exec (.pflr a) s = .next (withResult s (positNaR s.cfg)) ∧
      exec (.pceil a) s = .next (withResult s (positNaR s.cfg)) ∧
      exec (.pneg a) s = .next (withResult s (positNaR s.cfg))) ∧
    (b.setWidth s.cfg.N = positZero s.cfg → exec (.pdiv a b) s = .next (withResult s (positNaR s.cfg))) ∧
    ((a.setWidth s.cfg.N).toInt < 0 → exec (.psqrt a) s = .next (withResult s (positNaR s.cfg))) ∧
    (a.setWidth s.cfg.N = positNaR s.cfg ∨ b.setWidth s.cfg.N = positNaR s.cfg ∨ s.q = quireNaR s.cfg →
      exec (.qmadd a b) s = .next (withQuire s (quireNaR s.cfg)) ∧
      exec (.qmsub a b) s = .next (withQuire s (quireNaR s.cfg))) ∧
    (s.q = quireNaR s.cfg → exec .qtop s = .next (withResult s (positNaR s.cfg))) ∧
    (∃ r : Response, exec (.pdec a) s = .next { s with resp := some r } ∧
      (r.nar = true ↔ a.setWidth s.cfg.N = positNaR s.cfg)) ∧
    (∀ (sgn : Bool) (scale : Half) (frac : QuireWord) (stk : Bool), ∃ z : BitVec s.cfg.N,
      exec (.penc sgn scale frac stk) s = .next (withResult s z) ∧ z ≠ positNaR s.cfg)

/-- R132: the laws the commands satisfy, `na` and `nb` being bus values that hold the negated operands; that every
command with a NaR operand returns NaR is EveryNaRConditionGivesNaR. -/
def Obligations.ArithmeticLawsHold : Prop :=
  ∀ (s : State) (a b na nb zr on : Bus), s.cfg.Legal →
    na.setWidth s.cfg.N = -(a.setWidth s.cfg.N) → nb.setWidth s.cfg.N = -(b.setWidth s.cfg.N) →
    zr.setWidth s.cfg.N = positZero s.cfg → on.setWidth s.cfg.N = positOne s.cfg →
    (∃ z, exec (.padd a b) s = .next (withResult s z) ∧ exec (.padd na nb) s = .next (withResult s (-z)) ∧
      exec (.padd b a) s = .next (withResult s z) ∧ exec (.psub a nb) s = .next (withResult s z)) ∧
    (∃ z, exec (.pmul a b) s = .next (withResult s z) ∧ exec (.pmul na b) s = .next (withResult s (-z)) ∧
      exec (.pmul b a) s = .next (withResult s z)) ∧
    exec (.padd a zr) s = .next (withResult s (a.setWidth s.cfg.N)) ∧
    exec (.pmul a on) s = .next (withResult s (a.setWidth s.cfg.N)) ∧
    exec (.pmul a zr) s = .next (withResult s
      (if a.setWidth s.cfg.N = positNaR s.cfg then positNaR s.cfg else positZero s.cfg)) ∧
    exec (.pdiv a zr) s = .next (withResult s (positNaR s.cfg)) ∧
    ((a.setWidth s.cfg.N).toInt < 0 → exec (.psqrt a) s = .next (withResult s (positNaR s.cfg))) ∧
    (a.setWidth s.cfg.N ≠ positNaR s.cfg → exec (.padd a na) s = .next (withResult s (positZero s.cfg)) ∧
      exec (.psub a a) s = .next (withResult s (positZero s.cfg)))

/-! ### The quire -/

/-- R162, R163: QCLR leaves 0 in `Q`, and QNEG leaves `u_QW(-qs)`; ZERO and QNaR negate to themselves. -/
def Obligations.QclrAndQnegCompute : Prop :=
  (∀ cmd : Cmd, cmd.op = 0x20 → decode cmd = .ok .qclr) ∧
  (∀ cmd : Cmd, cmd.op = 0x21 → decode cmd = .ok .qneg) ∧
  ∀ s : State, s.cfg.Legal →
    exec .qclr s = .next (withQuire s 0) ∧
    (∃ v : BitVec s.cfg.QW, exec .qneg s = .next (withQuire s v) ∧
      (v.toNat : Int) = (-s.q.toInt) % 2 ^ s.cfg.QW ∧
      (s.q = 0 → v = 0) ∧ (s.q = quireNaR s.cfg → v = quireNaR s.cfg))

/-- R160: the product of two posit values times `2^QF` is an integer of magnitude at most `2^(QW-2)`. -/
def Obligations.ProductsAreExactInTheQuire : Prop :=
  ∀ (c : Config) (p q : BitVec c.N) (x y : ℝ), c.Legal → Reals.value c p = some x → Reals.value c q = some y →
    ∃ z : ℤ, (z : ℝ) = x * y * 2 ^ c.QF ∧ |z| ≤ 2 ^ (c.QW - 2)

/-- R164, R165: QMADD and QMSUB leave QNaR when `Q` is QNaR or an operand is NaR; otherwise the exact sum and
difference modulo `2^QW` (R169), which for a ZERO operand is `Q` as it was. -/
def Obligations.QmaddAndQmsubAccumulateExactly : Prop :=
  (∀ cmd : Cmd, cmd.op = 0x22 → decode cmd = .ok (.qmadd cmd.a cmd.b)) ∧
  (∀ cmd : Cmd, cmd.op = 0x23 → decode cmd = .ok (.qmsub cmd.a cmd.b)) ∧
  ∀ (s : State) (a b : Bus), s.cfg.Legal →
    (s.q = quireNaR s.cfg ∨ a.setWidth s.cfg.N = positNaR s.cfg ∨ b.setWidth s.cfg.N = positNaR s.cfg →
      exec (.qmadd a b) s = .next (withQuire s (quireNaR s.cfg)) ∧
      exec (.qmsub a b) s = .next (withQuire s (quireNaR s.cfg))) ∧
    (∀ x y : ℝ, s.q ≠ quireNaR s.cfg →
      Reals.value s.cfg (a.setWidth s.cfg.N) = some x → Reals.value s.cfg (b.setWidth s.cfg.N) = some y →
      ∃ (z : ℤ) (u v : BitVec s.cfg.QW), (z : ℝ) = x * y * 2 ^ s.cfg.QF ∧
        exec (.qmadd a b) s = .next (withQuire s u) ∧ (u.toNat : Int) = (s.q.toInt + z) % 2 ^ s.cfg.QW ∧
        exec (.qmsub a b) s = .next (withQuire s v) ∧ (v.toNat : Int) = (s.q.toInt - z) % 2 ^ s.cfg.QW ∧
        (a.setWidth s.cfg.N = positZero s.cfg ∨ b.setWidth s.cfg.N = positZero s.cfg → u = s.q ∧ v = s.q))

/-- R161: NaR in the quire is absorbing, a NaR operand puts it there, and only QCLR and QWR change it. -/
def Obligations.QuireNaRAbsorbs : Prop :=
  ∀ (s : State) (a b : Bus), s.cfg.Legal →
    (s.q = quireNaR s.cfg ∨ a.setWidth s.cfg.N = positNaR s.cfg ∨ b.setWidth s.cfg.N = positNaR s.cfg →
      exec (.qmadd a b) s = .next (withQuire s (quireNaR s.cfg)) ∧
      exec (.qmsub a b) s = .next (withQuire s (quireNaR s.cfg))) ∧
    (s.q = quireNaR s.cfg →
      exec .qneg s = .next (withQuire s (quireNaR s.cfg)) ∧
      exec .qtop s = .next (withResult s (positNaR s.cfg)) ∧
      ∀ (i : Instr) (t : State), exec i s = .next t →
        i = .qclr ∨ (∃ c d, i = .qwr c d) ∨ t.q = quireNaR t.cfg)

/-- R166: QTOP completes with one rounding of the exact quire value, ZERO for the all-zero quire, NaR for QNaR, and
never ZERO or NaR otherwise; `Q` is unchanged. -/
def Obligations.QtopRoundsTheExactQuireOnce : Prop :=
  (∀ cmd : Cmd, cmd.op = 0x24 → decode cmd = .ok .qtop) ∧
  ∀ s : State, s.cfg.Legal →
    (s.q ≠ quireNaR s.cfg →
      exec .qtop s = .next (withResult s (Reals.positRound s.cfg ((s.q.toInt : ℝ) / 2 ^ s.cfg.QF)))) ∧
    (s.q = quireNaR s.cfg → exec .qtop s = .next (withResult s (positNaR s.cfg))) ∧
    ∃ z, exec .qtop s = .next (withResult s z) ∧ (z = positZero s.cfg ↔ s.q = 0) ∧
      (z = positNaR s.cfg ↔ s.q = quireNaR s.cfg)

/-- R106 (3), R166: QTOP is monotone in the quire read as a signed integer, over every quire but QNaR. -/
def Obligations.QtopIsMonotone : Prop :=
  ∀ (s : State) (v : BitVec s.cfg.QW), s.cfg.Legal → s.q ≠ quireNaR s.cfg → v ≠ quireNaR s.cfg →
    s.q.toInt ≤ v.toInt →
    ∃ z w : BitVec s.cfg.N, exec .qtop s = .next (withResult s z) ∧
      exec .qtop { s with q := v } = .next (withResult { s with q := v } w) ∧ z.toInt ≤ w.toInt

/-- R167, R42, R43: QRD of a legal index answers the word of the sign-extended quire, word 0 the most significant,
bit by bit; `Q` is unchanged; an index out of range is refused. -/
def Obligations.QrdReadsTheWordView : Prop :=
  (∀ cmd : Cmd, cmd.op = 0x25 → decode cmd = .ok (.qrd cmd.c)) ∧
  ∀ (s : State) (idx : Half), s.cfg.Legal →
    (idx.toNat < s.cfg.quireWords → ∃ v : QuireWord, exec (.qrd idx) s = .next (withWord s v) ∧
      ∀ j, j < 64 → v.getLsbD j
        = (if 64 * (s.cfg.quireWords - 1 - idx.toNat) + j < s.cfg.QW
            then s.q.getLsbD (64 * (s.cfg.quireWords - 1 - idx.toNat) + j) else s.q.msb)) ∧
    (s.cfg.quireWords ≤ idx.toNat → exec (.qrd idx) s = .refused (.quireIndexOutOfRange idx))

/-- R168, R43: QWR of a legal index replaces the word's bits of `Q` and no other bit, and drops what lies above bit
`QW-1`; its response is 0; an index out of range is refused. -/
def Obligations.QwrWritesTheWordView : Prop :=
  (∀ cmd : Cmd, cmd.op = 0x26 → decode cmd = .ok (.qwr cmd.c cmd.d)) ∧
  ∀ (s : State) (idx : Half) (data : QuireWord), s.cfg.Legal →
    (idx.toNat < s.cfg.quireWords → ∃ v : BitVec s.cfg.QW, exec (.qwr idx data) s = .next (withQuire s v) ∧
      ∀ j, j < s.cfg.QW → v.getLsbD j
        = (if 64 * (s.cfg.quireWords - 1 - idx.toNat) ≤ j ∧ j < 64 * (s.cfg.quireWords - 1 - idx.toNat) + 64
            then data.getLsbD (j - 64 * (s.cfg.quireWords - 1 - idx.toNat)) else s.q.getLsbD j)) ∧
    (s.cfg.quireWords ≤ idx.toNat → exec (.qwr idx data) s = .refused (.quireIndexOutOfRange idx))

/-- R44: repeating QWR or QCLR leaves the same `Q` as doing it once, and repeating PDEC, QTOP or QRD gives the same
response and changes no state; so the second command of two equal ones leaves exactly the state of the first. -/
def Obligations.RepeatedReadsAndWritesChangeNothing : Prop :=
  ∀ (s t : State) (i : Instr),
    (i = .qclr ∨ i = .qtop ∨ (∃ a, i = .pdec a) ∨ (∃ c, i = .qrd c) ∨ (∃ c d, i = .qwr c d)) →
    s.cfg.Legal → exec i s = .next t → exec i t = .next t

/-- R168, R167: a quire saved by QRD of every word and written back by QWR of every word is restored bit for bit,
whatever `Q` held in between, when every word has an index (`QWORDS <= 65536`).
The list of what is presented is the model's (DESIGN CHOICE, notes/assumptions/6.md). -/
def Obligations.SavedQuireIsRestoredBitForBit : Prop :=
  ∀ (s : State) (other : BitVec s.cfg.QW) (w : Nat → QuireWord), s.instanceLegal → s.cfg.quireWords ≤ 65536 →
    (∀ n, n < s.cfg.quireWords → exec (.qrd (BitVec.ofNat 16 n)) s = .next (withWord s (w n))) →
    ∃ t : State,
      Host.Core.run Sys2Proof.core s.cfg.quireWords
        { s with
          q := other
          pending := ((List.range s.cfg.quireWords).map fun n =>
            HostEvent.command (encode (.qwr (BitVec.ofNat 16 n) (w n)))) } = .next t ∧
      t = { withQuire s s.q with pending := [] }

/-- The value of a bus operand, 0 for NaR. -/
noncomputable def busValue (c : Config) (a : Bus) : ℝ := (Reals.value c (a.setWidth c.N)).getD 0

/-- The exact sum of the products of a list of operand pairs. -/
noncomputable def exactDot (c : Config) (l : List (Bus × Bus)) : ℝ :=
  (l.map fun ab => busValue c ab.1 * busValue c ab.2).sum

/-- R160, R166: a sum of products is rounded once. From any state, QCLR, then QMADD of any list of pairs with no NaR
among them, then QTOP, answers `posit_round` of the exact sum of the products, provided no partial sum leaves the
quire (R169: strictly between `-2^(QW-1)` and `2^(QW-1)`).
The list of what is presented is the model's (DESIGN CHOICE, notes/assumptions/6.md). -/
def Obligations.DotProductIsRoundedOnce : Prop :=
  ∀ (s : State) (l : List (Bus × Bus)), s.instanceLegal →
    s.pending = HostEvent.command (encode .qclr)
      :: (l.map (fun ab => HostEvent.command (encode (.qmadd ab.1 ab.2))) ++ [HostEvent.command (encode .qtop)]) →
    (∀ ab ∈ l, ab.1.setWidth s.cfg.N ≠ positNaR s.cfg ∧ ab.2.setWidth s.cfg.N ≠ positNaR s.cfg) →
    (∀ n, |exactDot s.cfg (l.take n)| * 2 ^ s.cfg.QF < 2 ^ (s.cfg.QW - 1)) →
    ∃ v : BitVec s.cfg.QW, (v.toInt : ℝ) = exactDot s.cfg l * 2 ^ s.cfg.QF ∧
      Host.Core.run Sys2Proof.core (l.length + 2) s
        = .next { withResult { s with q := v } (Reals.positRound s.cfg (exactDot s.cfg l)) with pending := [] }

/-! ### Programs -/

/-- R69: the encoding of a program is the list of its commands' records, in order; presented after what the host
presents already, it is taken command by command: presenting a program changes nothing else.
The list of what is presented is the model's (DESIGN CHOICE, notes/assumptions/6.md). -/
def Obligations.PresentedProgramsRunInOrder : Prop :=
  ∀ (s : State) (i : Instr) (p : List Instr), s.instanceLegal → s.pending = [] →
    step (s.present (i :: p)) = exec i ({ s with pending := (p.map encode).map HostEvent.command })
end

