-- ==== Sys2Proof/Laws/Exact.lean ====
section
/-! SUPPORT. The laws of the exact arithmetic in Machine/Exact.lean: dyadic rationals are the reals they stand for, the
integer square root is the square root, and bit strings are read as R10 says. -/

namespace Sys2Proof.Machine

open Sys2Proof.Reals

@[simp] theorem pow2_cast_real (n : Nat) : ((pow2 n : Int) : ℝ) = 2 ^ n := by simp [pow2]

theorem pow2_pos (n : Nat) : 0 < pow2 n := by simp [pow2]

@[simp] theorem pow2_eq (n : Nat) : pow2 n = 2 ^ n := by simp [pow2]

/-- Moving a factor between the numerator and the exponent. -/
theorem mul_pow_toNat_mul_zpow (a : ℝ) {lo e : Int} (h : lo ≤ e) :
    a * 2 ^ (e - lo).toNat * (2 : ℝ) ^ lo = a * (2 : ℝ) ^ e := by
  have : (2 : ℝ) ^ e = (2 : ℝ) ^ (e - lo).toNat * (2 : ℝ) ^ lo := by
    rw [← zpow_natCast, ← zpow_add₀ two_ne_zero, Int.toNat_of_nonneg (by omega)]
    congr 1; omega
  rw [this]; ring

@[simp] theorem ofDyad_add (x y : Dyad) : ofDyad (x.add y) = ofDyad x + ofDyad y := by
  simp only [ofDyad, Dyad.add, Dyad.alignTo, Int.cast_add, Int.cast_mul, pow2_cast_real, add_mul]
  rw [mul_pow_toNat_mul_zpow _ (min_le_left _ _), mul_pow_toNat_mul_zpow _ (min_le_right _ _)]

@[simp] theorem ofDyad_neg (x : Dyad) : ofDyad x.neg = -ofDyad x := by simp [ofDyad, Dyad.neg]

@[simp] theorem ofDyad_sub (x y : Dyad) : ofDyad (x.sub y) = ofDyad x - ofDyad y := by
  simp [Dyad.sub, sub_eq_add_neg]

@[simp] theorem ofDyad_mul (x y : Dyad) : ofDyad (x.mul y) = ofDyad x * ofDyad y := by
  simp only [ofDyad, Dyad.mul, Int.cast_mul, zpow_add₀ (two_ne_zero (α := ℝ))]; ring

@[simp] theorem ofDyad_shift (x : Dyad) (n : Int) : ofDyad (x.shift n) = ofDyad x * (2 : ℝ) ^ n := by
  simp only [ofDyad, Dyad.shift, zpow_add₀ (two_ne_zero (α := ℝ))]; ring

@[simp] theorem ofDyad_ofInt (n : Int) : ofDyad (Dyad.ofInt n) = n := by simp [ofDyad, Dyad.ofInt]

theorem ofDyad_eq_zero_iff (x : Dyad) : ofDyad x = 0 ↔ x.num = 0 := by simp [ofDyad, zpow_ne_zero]

theorem ofDyad_neg_iff (x : Dyad) : ofDyad x < 0 ↔ x.num < 0 := by
  have h : (0 : ℝ) < 2 ^ x.exp := zpow_pos two_pos _
  rw [ofDyad, mul_neg_iff]
  simp [h, h.not_gt]

theorem Dyad.bottom_pos (x : Dyad) : 0 < x.bottom := pow2_pos _

/-- A dyadic rational is the quotient of its top and its bottom. -/
theorem ofDyad_eq_top_div_bottom (x : Dyad) : ofDyad x = (x.top : ℝ) / (x.bottom : ℝ) := by
  rw [eq_div_iff (by exact_mod_cast x.bottom_pos.ne')]
  simp only [ofDyad, Dyad.top, Dyad.bottom, Int.cast_mul, pow2_cast_real]
  rw [mul_assoc, ← zpow_natCast (2 : ℝ) (-x.exp).toNat, ← zpow_natCast (2 : ℝ) x.exp.toNat,
    ← zpow_add₀ two_ne_zero]
  congr 2; omega

theorem floor_intCast_div (a b : Int) (hb : 0 < b) : ⌊(a : ℝ) / (b : ℝ)⌋ = a / b := by
  obtain ⟨n, rfl⟩ := Int.eq_ofNat_of_zero_le hb.le
  simpa using Int.floor_div_natCast (a : ℝ) n

theorem Dyad.floor_eq (x : Dyad) : x.floor = ⌊ofDyad x⌋ := by
  rw [ofDyad_eq_top_div_bottom, floor_intCast_div _ _ x.bottom_pos, Dyad.floor]

theorem Dyad.ceil_eq (x : Dyad) : x.ceil = ⌈ofDyad x⌉ := by
  rw [ofDyad_eq_top_div_bottom, ← neg_neg (_ / _), Int.ceil_neg, ← neg_div, ← Int.cast_neg,
    floor_intCast_div _ _ x.bottom_pos, Dyad.ceil]

/-- The rest that `Dyad.nearestEven` looks at is the fraction of the value. -/
theorem Dyad.rest_eq (x : Dyad) : ((x.top % x.bottom : Int) : ℝ) = (ofDyad x - x.floor) * x.bottom := by
  have h : (x.bottom : ℝ) ≠ 0 := by exact_mod_cast x.bottom_pos.ne'
  rw [ofDyad_eq_top_div_bottom, sub_mul, div_mul_cancel₀ _ h, Dyad.floor, Int.emod_def]
  push_cast; ring

/-- The nearest integer is at a distance of at most 1/2, and even when it is at exactly 1/2 (R128). -/
theorem Dyad.nearestEven_spec (x : Dyad) :
    |ofDyad x - x.nearestEven| ≤ 1 / 2 ∧ (|ofDyad x - x.nearestEven| = 1 / 2 → Even x.nearestEven) := by
  have hb : (0 : ℝ) < x.bottom := by exact_mod_cast x.bottom_pos
  have hr := x.rest_eq
  have h0 : (0 : ℝ) ≤ ofDyad x - x.floor := by rw [x.floor_eq]; linarith [Int.floor_le (ofDyad x)]
  have h1 : ofDyad x - x.floor < 1 := by rw [x.floor_eq]; linarith [Int.lt_floor_add_one (ofDyad x)]
  have cmp : ∀ n : Int, (x.bottom < 2 * (x.top % x.bottom) ↔ 1 / 2 < ofDyad x - x.floor) ∧
      (2 * (x.top % x.bottom) = x.bottom ↔ ofDyad x - x.floor = 1 / 2) := fun _ => by
    constructor
    · rw [← Int.cast_lt (R := ℝ)]; push_cast; rw [hr]
      constructor <;> intro h <;> nlinarith
    · rw [← Int.cast_inj (α := ℝ)]; push_cast; rw [hr]
      constructor <;> intro h
      · have : (2 * (ofDyad x - x.floor) - 1) * x.bottom = 0 := by linarith
        rcases mul_eq_zero.1 this with h | h <;> linarith
      · rw [h]; ring
  obtain ⟨c1, c2⟩ := cmp 0
  simp only [Dyad.nearestEven, c1, c2]
  split_ifs with h
  · push_cast
    rw [abs_of_nonpos (by linarith)]
    refine ⟨?_, fun h' => ?_⟩
    · rcases h with h | h <;> linarith [h]
    · rcases h with h | h
      · linarith
      · rw [Int.even_add_one, Int.not_even_iff]; exact h.2
  · push Not at h
    rw [abs_of_nonneg h0]
    refine ⟨h.1, fun h' => ?_⟩
    rw [Int.even_iff]; have := h.2 h'; omega

/-- Each bit of the root is found from the top: the bits found never exceed the root, and the bits to come suffice. -/
theorem isqrtBits_spec (n i acc : Nat) (h : acc * acc ≤ n) (h' : n < (acc + 2 ^ i) * (acc + 2 ^ i)) :
    isqrtBits n i acc * isqrtBits n i acc ≤ n ∧ n < (isqrtBits n i acc + 1) * (isqrtBits n i acc + 1) := by
  induction i generalizing acc with
  | zero => exact ⟨h, by simpa [isqrtBits] using h'⟩
  | succ i ih =>
    rw [isqrtBits]
    split_ifs with hb
    · exact ih _ hb (by rwa [pow_succ, mul_two, ← add_assoc] at h')
    · exact ih _ h (not_le.1 hb)

theorem isqrt_eq (n : Nat) : isqrt n = n.sqrt := by
  have h : n < (0 + 2 ^ (n.log2 / 2 + 1)) * (0 + 2 ^ (n.log2 / 2 + 1)) := by
    rw [zero_add, ← pow_add]
    exact lt_of_lt_of_le n.lt_log2_self (Nat.pow_le_pow_right two_pos (by omega))
  exact Nat.eq_sqrt.2 (isqrtBits_spec n _ 0 (by simp) h)

@[simp] theorem BitStr.append_len (a b : BitStr) : (a.append b).len = a.len + b.len := rfl

@[simp] theorem BitStr.append_val (a b : BitStr) : (a.append b).val = a.val * 2 ^ b.len + b.val := rfl

/-- The first `n` bits are the integer part of the string read with the point after bit `n-1`. -/
theorem BitStr.first_eq (t : BitStr) (n : Nat) :
    t.first n = ⌊(t.val : ℝ) * (2 : ℝ) ^ ((n : ℤ) - t.len)⌋₊ := by
  rw [BitStr.first]
  split_ifs with h
  · have : (2 : ℝ) ^ ((n : ℤ) - t.len) = ((2 ^ (t.len - n) : Nat) : ℝ)⁻¹ := by
      push_cast; rw [← zpow_natCast, ← zpow_neg]; congr 1; omega
    rw [this, ← div_eq_mul_inv, Nat.floor_div_natCast, Nat.floor_natCast]
  · have : (2 : ℝ) ^ ((n : ℤ) - t.len) = ((2 ^ (n - t.len) : Nat) : ℝ) := by
      push_cast; rw [← zpow_natCast]; congr 1; omega
    rw [this, ← Nat.cast_mul, Nat.floor_natCast]

end Sys2Proof.Machine
end

