-- ==== Sys2Proof/Laws/Codec.lean ====
section
/-! SUPPORT. What the field decode of spec/40_codec.md gives: the run is the longest one, every field is in its range,
the magnitude pattern is the regime string followed by the tail, and the value is R86's. -/

namespace Sys2Proof.Machine

open Sys2Proof

/-! ### The regime run (R81) -/

theorem leadingRun_le {w : Nat} (u : BitVec w) (r0 : Bool) (n : Nat) : leadingRun u r0 n ≤ n := by
  induction n with
  | zero => simp [leadingRun]
  | succ n ih => rw [leadingRun]; split_ifs <;> omega

theorem leadingRun_bits {w : Nat} (u : BitVec w) (r0 : Bool) (n : Nat) :
    ∀ j, j < leadingRun u r0 n → u.getLsbD (n - 1 - j) = r0 := by
  induction n with
  | zero => simp [leadingRun]
  | succ n ih =>
    intro j hj
    rw [leadingRun] at hj
    split_ifs at hj with h
    · rcases j with _ | j
      · simpa using h
      · have := ih j (by omega)
        rwa [show n + 1 - 1 - (j + 1) = n - 1 - j by omega]
    · omega

theorem leadingRun_ends {w : Nat} (u : BitVec w) (r0 : Bool) (n : Nat) (h : leadingRun u r0 n < n) :
    u.getLsbD (n - 1 - leadingRun u r0 n) = ! r0 := by
  induction n with
  | zero => omega
  | succ n ih =>
    rw [leadingRun] at h ⊢
    split_ifs at h ⊢ with h'
    · rw [show n + 1 - 1 - (leadingRun u r0 n + 1) = n - 1 - leadingRun u r0 n by omega]
      exact ih (by omega)
    · have h' : u.getLsbD n = ! r0 := by
        cases hb : u.getLsbD n <;> cases r0 <;> simp_all
      simpa using h'

theorem leadingRun_pos {w : Nat} (u : BitVec w) (n : Nat) : 1 ≤ leadingRun u (u.getLsbD n) (n + 1) := by
  simp [leadingRun]

/-! ### The magnitude pattern (R80) -/

theorem signBit_eq_msb (c : Config) (p : BitVec c.N) : signBit c p = p.msb := by
  rw [signBit, BitVec.msb_eq_getLsbD_last]

theorem positNaR_toNat (c : Config) (hN : 1 ≤ c.N) : (positNaR c).toNat = 2 ^ (c.N - 1) := by
  rw [positNaR, BitVec.toNat_ofNat, Nat.mod_eq_of_lt]
  exact Nat.pow_lt_pow_right (by omega) (by omega)

/-- The magnitude of a pattern that is neither ZERO nor NaR is from 1 to MAXPOS (R80). -/
theorem magnitude_range (c : Config) (hN : 1 ≤ c.N) (p : BitVec c.N) (h0 : p ≠ positZero c) (h1 : p ≠ positNaR c) :
    0 < (magnitude c p).toNat ∧ (magnitude c p).toNat < 2 ^ (c.N - 1) := by
  have hp0 : p.toNat ≠ 0 := fun h => h0 (BitVec.eq_of_toNat_eq (by simpa [positZero] using h))
  have hp1 : p.toNat ≠ 2 ^ (c.N - 1) := fun h => h1 (BitVec.eq_of_toNat_eq (by rw [positNaR_toNat c hN, h]))
  have hlt := p.isLt
  have hpow : 2 ^ c.N = 2 * 2 ^ (c.N - 1) := by rw [← pow_succ']; congr 1; omega
  rw [magnitude, signBit_eq_msb, BitVec.msb_eq_decide]
  split_ifs with h
  · have : 2 ^ (c.N - 1) ≤ p.toNat := by simpa using h
    rw [BitVec.toNat_neg, Nat.mod_eq_of_lt (by omega)]
    omega
  · have : ¬ 2 ^ (c.N - 1) ≤ p.toNat := by simpa using h
    omega

/-- The pattern is its magnitude with its sign. -/
theorem magnitude_signed (c : Config) (p : BitVec c.N) :
    (if signBit c p then -magnitude c p else magnitude c p) = p := by
  rw [magnitude]; split_ifs <;> simp

/-! ### The ranges of the fields (R81 to R86) -/

variable (c : Config) (p : BitVec c.N)

theorem regimeRun_le : regimeRun c p ≤ c.N - 1 := leadingRun_le _ _ _

theorem regimeRun_pos (hN : 3 ≤ c.N) : 1 ≤ regimeRun c p := by
  rw [regimeRun, regimeBit, show c.N - 1 = (c.N - 2) + 1 by omega]
  exact leadingRun_pos _ _

/-- A run that fills the word is a run of ones: a run of N-1 zeros is the pattern ZERO (R81). -/
theorem regimeBit_of_full_run (hN : 3 ≤ c.N) (h0 : p ≠ positZero c) (h1 : p ≠ positNaR c)
    (h : regimeRun c p = c.N - 1) : regimeBit c p = true := by
  by_contra hr
  have hb : regimeBit c p = false := by simpa using hr
  have hz : magnitude c p = 0 := by
    apply BitVec.eq_of_getLsbD_eq
    intro i hi
    have hlt := (magnitude_range c (by omega) p h0 h1).2
    by_cases hl : i = c.N - 1
    · subst hl
      rw [BitVec.getLsbD, Nat.testBit_lt_two_pow hlt]; simp
    · have := leadingRun_bits (magnitude c p) (regimeBit c p) (c.N - 1) (c.N - 1 - 1 - i)
        (by rw [← regimeRun, h]; omega)
      rw [show c.N - 1 - 1 - (c.N - 1 - 1 - i) = i by omega, hb] at this
      rw [this]; simp
  have := (magnitude_range c (by omega) p h0 h1).1
  rw [hz] at this; simp at this

theorem tailLength_eq (hN : 3 ≤ c.N) : tailLength c p = c.N - 2 - regimeRun c p := by
  have := regimeRun_le c p
  rw [tailLength, consumedBits]; split_ifs <;> omega

theorem tailLength_add_consumed : tailLength c p + consumedBits c p = c.N - 1 := by
  have := regimeRun_le c p
  rw [tailLength, consumedBits]; split_ifs <;> omega

theorem tailBits_lt : tailBits c p < 2 ^ tailLength c p := Nat.mod_lt _ (by positivity)

/-- The tail fits its N-1 bits, so that left-justifying it loses nothing (R83). -/
theorem tailJustified_eq : tailJustified c p = tailBits c p * 2 ^ consumedBits c p := by
  rw [tailJustified, Nat.mod_eq_of_lt]
  rw [← tailLength_add_consumed c p, pow_add]
  exact Nat.mul_lt_mul_of_pos_right (tailBits_lt c p) (by positivity)

theorem tailJustified_lt : tailJustified c p < 2 ^ (c.N - 1) := Nat.mod_lt _ (by positivity)

theorem exponent_lt : exponent c p < 2 ^ c.ES := by
  have h := tailBits_lt c p
  rw [exponent]
  split_ifs with hs
  · rw [Nat.div_lt_iff_lt_mul (by positivity), ← pow_add]
    rwa [show c.ES + (tailLength c p - c.ES) = tailLength c p by omega]
  · calc tailBits c p * 2 ^ (c.ES - tailLength c p) < 2 ^ tailLength c p * 2 ^ (c.ES - tailLength c p) :=
        Nat.mul_lt_mul_of_pos_right h (by positivity)
      _ = 2 ^ c.ES := by rw [← pow_add]; congr 1; omega

theorem fraction_lt : fraction c p < 2 ^ fractionLength c p := Nat.mod_lt _ (by positivity)

theorem fractionLength_le (hN : 3 ≤ c.N) : fractionLength c p ≤ c.N - 3 - c.ES := by
  have := regimeRun_pos c p hN
  rw [fractionLength, tailLength_eq c p hN]; omega

/-- The exponent and the fraction are the tail, read with zeros filled in after it (R84, R85). -/
theorem exponent_fraction_eq :
    exponent c p * 2 ^ fractionLength c p + fraction c p = tailBits c p * 2 ^ (c.ES - tailLength c p) := by
  rw [exponent, fraction, fractionLength]
  split_ifs with h
  · rw [Nat.sub_eq_zero_of_le h, pow_zero, mul_one]
    exact Nat.div_add_mod' _ _
  · rw [Nat.sub_eq_zero_of_le (le_of_not_ge h), pow_zero, Nat.mod_one]; simp

theorem significand_pos : 0 < significand c p := by
  rw [significand]; positivity

theorem fraction64_lt (h : fractionLength c p ≤ 64) : fraction64 c p < 2 ^ 64 := by
  rw [fraction64]
  split_ifs
  · calc fraction c p * 2 ^ (64 - fractionLength c p) < 2 ^ fractionLength c p * 2 ^ (64 - fractionLength c p) :=
        Nat.mul_lt_mul_of_pos_right (fraction_lt c p) (by positivity)
      _ = 2 ^ 64 := by rw [← pow_add]; congr 1; omega
  · positivity

/-- The regime value of a pattern that is neither ZERO nor NaR has the pattern's run as its run length (R82, R100). -/
theorem regimeValue_range (hN : 3 ≤ c.N) (h0 : p ≠ positZero c) (h1 : p ≠ positNaR c) :
    (regimeValue c p).natAbs ≤ c.N - 2 := by
  have h2 := regimeRun_le c p
  have h3 := regimeRun_pos c p hN
  have h4 : regimeRun c p = c.N - 1 → regimeBit c p = true := regimeBit_of_full_run c p hN h0 h1
  rw [regimeValue]
  split_ifs with h
  · omega
  · have : regimeRun c p ≠ c.N - 1 := fun h' => h (h4 h')
    omega

/-! ### The value (R86) -/

/-- The machine's exact value is the spec's real value. -/
theorem value_map_ofDyad : (value c p).map Reals.ofDyad = Reals.value c p := by
  simp only [value, Reals.value, isNaR, isZero, beq_iff_eq]
  split_ifs with h1 h2 h3
  · rfl
  · simp
  all_goals
    simp only [Option.map_some, Option.some.injEq, Reals.ofDyad, finiteValue, signBit_eq_msb]
    simp only [h3, if_true, zpow_sub₀ (two_ne_zero (α := ℝ)), zpow_natCast, significand]
    push_cast
    field_simp

theorem value_eq_none_iff : value c p = none ↔ p = positNaR c := by
  simp only [value, isNaR, isZero, beq_iff_eq]
  split_ifs <;> simp_all

theorem realValue_eq_none_iff : Reals.value c p = none ↔ p = positNaR c := by
  rw [← value_map_ofDyad, Option.map_eq_none_iff, value_eq_none_iff]

/-- The machine's exact value behind a real value. -/
theorem exists_value_of_real {x : ℝ} (h : Reals.value c p = some x) :
    ∃ d, value c p = some d ∧ Reals.ofDyad d = x := by
  rw [← value_map_ofDyad] at h
  exact Option.map_eq_some_iff.1 h

/-- Only ZERO has the value 0: "no pattern denotes -0" (R26). -/
theorem value_num_eq_zero_iff {d : Dyad} (h : value c p = some d) : d.num = 0 ↔ p = positZero c := by
  have hs := significand_pos c p
  simp only [value, isNaR, isZero, beq_iff_eq] at h
  split_ifs at h with h1 h2
  · cases h; simp [h2, Dyad.ofInt]
  · cases h
    simp only [finiteValue, h2, iff_false]
    split_ifs <;> omega

end Sys2Proof.Machine
end

