-- ==== Sys2Proof/Laws/Packer.lean ====
section
/-! SUPPORT. What the rounding packer computes, once: the `posit_round` of spec/41_packer.md R105 in the reals. The
arithmetic, the quire and PENC cite `pack_eq`, `roundBits_eq`, `roundQuotient_eq` and `roundSqrt_eq`. -/

namespace Sys2Proof.Machine

open Sys2Proof

/-- The first bits of a string are the first bits of any real that begins with it. -/
theorem BitStr.first_eq_floor (t : BitStr) (n : Nat) (d : ℝ) (h0 : 0 ≤ d) (h1 : d < 1) (h : d = 0 ∨ n ≤ t.len) :
    t.first n = ⌊((t.val : ℝ) + d) * (2 : ℝ) ^ ((n : ℤ) - t.len)⌋₊ := by
  rcases h with rfl | h
  · rw [add_zero, t.first_eq]
  · have hz : (2 : ℝ) ^ ((n : ℤ) - t.len) = ((2 ^ (t.len - n) : Nat) : ℝ)⁻¹ := by
      push_cast; rw [← zpow_natCast, ← zpow_neg]; congr 1; omega
    have hv : ⌊(t.val : ℝ) + d⌋₊ = t.val := by
      rw [Nat.floor_eq_iff (by positivity)]; constructor <;> linarith
    rw [BitStr.first, if_pos h, hz, ← div_eq_mul_inv, Nat.floor_div_natCast, hv]

/-- Whether any bit from bit `n` on is 1, of the string or of what follows it. -/
theorem BitStr.anyFrom_or_iff (t : BitStr) (n : Nat) (d : ℝ) (h0 : 0 ≤ d) (h1 : d < 1) (h : d = 0 ∨ n ≤ t.len) :
    (t.anyFrom n = true ∨ d ≠ 0) ↔ Int.fract (((t.val : ℝ) + d) * (2 : ℝ) ^ ((n : ℤ) - t.len)) ≠ 0 := by
  by_cases hn : n ≤ t.len
  · have hz : (2 : ℝ) ^ ((n : ℤ) - t.len) = ((2 ^ (t.len - n) : Nat) : ℝ)⁻¹ := by
      push_cast; rw [← zpow_natCast, ← zpow_neg]; congr 1; omega
    set w := 2 ^ (t.len - n) with hw
    have hwp : (0 : ℝ) < (w : ℝ) := by rw [hw]; positivity
    have hr : t.val % w < w := Nat.mod_lt _ (by rw [hw]; positivity)
    have hr' : ((t.val % w : Nat) : ℝ) + 1 ≤ w := by exact_mod_cast hr
    have hsplit : ((t.val : ℝ) + d) * (w : ℝ)⁻¹ = ((t.val / w : Nat) : ℝ) + (((t.val % w : Nat) : ℝ) + d) / w := by
      have : (t.val : ℝ) = w * ((t.val / w : Nat) : ℝ) + ((t.val % w : Nat) : ℝ) := by
        exact_mod_cast (Nat.div_add_mod t.val w).symm
      rw [this]; field_simp; ring
    have hfr : Int.fract (((t.val : ℝ) + d) * (w : ℝ)⁻¹) = (((t.val % w : Nat) : ℝ) + d) / w := by
      rw [hsplit, ← Int.cast_natCast (t.val / w), Int.fract_intCast_add, Int.fract_eq_self]
      exact ⟨by positivity, by rw [div_lt_one hwp]; linarith⟩
    rw [hz, hfr, BitStr.anyFrom, if_pos hn, ← hw]
    have hnn : (0 : ℝ) ≤ ((t.val % w : Nat) : ℝ) := Nat.cast_nonneg _
    rw [ne_eq ((_ : ℝ) / _) 0, div_eq_zero_iff, not_or]
    constructor
    · rintro (h' | h')
      · have : (0 : ℝ) < ((t.val % w : Nat) : ℝ) := by
          have : t.val % w ≠ 0 := by simpa using h'
          exact_mod_cast Nat.pos_of_ne_zero this
        exact ⟨by linarith, hwp.ne'⟩
      · exact ⟨by intro h2; apply h'; linarith, hwp.ne'⟩
    · rintro ⟨h', -⟩
      by_cases hd : d = 0
      · left; subst hd
        have : t.val % w ≠ 0 := by simpa using h'
        simpa using this
      · exact .inr hd
  · obtain rfl : d = 0 := h.resolve_right hn
    have hz : (2 : ℝ) ^ ((n : ℤ) - t.len) = ((2 ^ (n - t.len) : Nat) : ℝ) := by
      push_cast; rw [← zpow_natCast]; congr 1; omega
    rw [hz, add_zero, ← Nat.cast_mul, BitStr.anyFrom, if_neg hn, Int.fract_natCast]
    simp

/-- Rounding a string is R104 at its code point. -/
theorem roundString_eq (c : Config) (T : BitStr) (sticky : Bool) (d y : ℝ) (hN : 1 ≤ c.N) (h0 : 0 ≤ d) (h1 : d < 1)
    (hd : sticky = true ↔ d ≠ 0) (hlen : sticky = true → c.N ≤ T.len)
    (hy : y = ((T.val : ℝ) + d) * (2 : ℝ) ^ ((c.N : ℤ) - 1 - T.len)) :
    roundString c T sticky = Reals.roundCode y := by
  have hor : d = 0 ∨ c.N ≤ T.len := by
    by_cases h : d = 0
    · exact .inl h
    · exact .inr (hlen (hd.2 h))
  have h2y : 2 * y = ((T.val : ℝ) + d) * (2 : ℝ) ^ ((c.N : ℤ) - T.len) := by
    rw [hy, show (c.N : ℤ) - T.len = ((c.N : ℤ) - 1 - T.len) + 1 by ring, zpow_add_one₀ two_ne_zero]; ring
  have hM : T.first (c.N - 1) = ⌊y⌋₊ := by
    rw [T.first_eq_floor (c.N - 1) d h0 h1 (hor.imp_right (by omega)), hy]
    congr 3; omega
  have hB : T.bit (c.N - 1) = (⌊2 * y⌋₊ % 2 == 1) := by
    rw [BitStr.bit, Nat.sub_add_cancel hN, T.first_eq_floor c.N d h0 h1 hor, h2y]
  have hA : (T.anyFrom c.N || sticky) = true ↔ Int.fract (2 * y) ≠ 0 := by
    rw [h2y, ← T.anyFrom_or_iff c.N d h0 h1 hor, Bool.or_eq_true, hd]
  simp only [roundString, Reals.roundCode, hM, hB, Bool.and_eq_true, Bool.or_eq_true, beq_iff_eq] at hA ⊢
  simp only [hA]
  split_ifs <;> rfl

theorem regimeLength_eq (k : Int) : regimeLength k = Reals.regimeLength k := rfl

theorem regimeString_val (k : Int) : (regimeString k).val = Reals.regimeCode k := by
  simp only [regimeString, Reals.regimeCode, regimeLength]
  split_ifs <;> rfl

theorem regimeString_len (k : Int) : (regimeString k).len = Reals.regimeLength k + 1 := rfl

theorem regimeLength_pos (k : Int) : 1 ≤ Reals.regimeLength k := by
  simp only [Reals.regimeLength]; split_ifs <;> omega

/-- The scale of a real given by its scale and its fraction. -/
theorem log_of_scale (scale : Int) (f : ℝ) (h0 : 0 ≤ f) (h1 : f < 1) : Int.log 2 ((2 : ℝ) ^ scale * (1 + f)) = scale := by
  have hp : (0 : ℝ) < 2 ^ scale := zpow_pos two_pos _
  have hx : (0 : ℝ) < 2 ^ scale * (1 + f) := by positivity
  apply le_antisymm
  · rw [← Int.lt_add_one_iff, ← Int.lt_zpow_iff_log_lt one_lt_two hx]
    push_cast
    rw [zpow_add_one₀ two_ne_zero]; nlinarith
  · rw [← Int.zpow_le_iff_le_log one_lt_two hx]
    push_cast
    nlinarith

/-- What the packer computes: `posit_round` (R105) of the real with the given sign and scale whose fraction begins with
the bits `F`, `d` of a last bit beyond them. -/
theorem pack_eq (c : Config) (neg : Bool) (scale : Int) (F : BitStr) (sticky : Bool) (d x : ℝ) (hN : 1 ≤ c.N)
    (hF : F.val < 2 ^ F.len) (h0 : 0 ≤ d) (h1 : d < 1) (hd : sticky = true ↔ d ≠ 0)
    (hlen : sticky = true → c.N ≤ F.len + 2)
    (hx : x = (2 : ℝ) ^ scale * (1 + ((F.val : ℝ) + d) / 2 ^ F.len)) :
    pack c neg scale F sticky = if neg then -Reals.roundPositive c x else Reals.roundPositive c x := by
  have hFr : ((F.val : ℝ) + 1) ≤ 2 ^ F.len := by exact_mod_cast hF
  have hphi0 : 0 ≤ ((F.val : ℝ) + d) / 2 ^ F.len := by positivity
  have hphi1 : ((F.val : ℝ) + d) / 2 ^ F.len < 1 := by rw [div_lt_one (by positivity)]; linarith
  have hlog : Int.log 2 x = scale := by rw [hx]; exact log_of_scale _ _ hphi0 hphi1
  have hphi : Reals.phi x = ((F.val : ℝ) + d) / 2 ^ F.len := by
    rw [Reals.phi, hlog, hx, mul_div_cancel_left₀ _ (zpow_pos two_pos _).ne']; ring
  have hk : Reals.regime c x = scaleRegime c scale := by simp [Reals.regime, scaleRegime, hlog]
  have he0 : 0 ≤ scale - scaleRegime c scale * pow2 c.ES := by
    have := Int.emod_nonneg scale (pow2_pos c.ES).ne'
    rw [Int.emod_def] at this
    rw [scaleRegime]; linarith
  have he : ((scaleExponent c scale : Nat) : ℝ) = (Reals.exponent c x : ℝ) := by
    rw [Reals.exponent, hk, hlog, scaleExponent]
    rw [← Int.cast_natCast, Int.toNat_of_nonneg he0, pow2_eq]
  have key : packMagnitude c (scaleRegime c scale) (scaleExponent c scale) F sticky = Reals.roundPositive c x := by
    rw [packMagnitude, Reals.roundPositive, hk, regimeLength_eq]
    split_ifs with hs
    · rfl
    · rfl
    · congr 1
      apply roundString_eq c _ sticky d _ hN h0 h1 hd
      · intro hst
        have := hlen hst
        have := regimeLength_pos (scaleRegime c scale)
        simp only [fieldString, BitStr.append_len, regimeString_len]; omega
      · simp only [Reals.codePoint, hk, hphi, ← he, fieldString, BitStr.append_len, BitStr.append_val,
          regimeString_len, regimeString_val]
        push_cast
        rw [show (c.N : ℤ) - 1 - ((Reals.regimeLength (scaleRegime c scale) : ℤ) + 1 + c.ES + F.len)
            = ((c.N : ℤ) - 1 - ((Reals.regimeLength (scaleRegime c scale) : ℤ) + 1)) - (c.ES : ℤ) - (F.len : ℤ) by ring,
          zpow_sub₀ two_ne_zero _ (F.len : ℤ), zpow_sub₀ two_ne_zero _ (c.ES : ℤ), zpow_natCast, zpow_natCast]
        field_simp
        ring
  rw [pack, key]; rfl

/-- What `roundBits` computes: `posit_round` of the real whose magnitude is `m + d` units of `2^e`. -/
theorem roundBits_eq (c : Config) (neg : Bool) (m : Nat) (e : Int) (sticky : Bool) (d x : ℝ) (hN : 1 ≤ c.N)
    (hm : m ≠ 0) (h0 : 0 ≤ d) (h1 : d < 1) (hd : sticky = true ↔ d ≠ 0)
    (hlen : sticky = true → 2 ^ (c.N - 2) ≤ m) (hx : x = ((m : ℝ) + d) * (2 : ℝ) ^ e) :
    roundBits c neg m e sticky = if neg then -Reals.roundPositive c x else Reals.roundPositive c x := by
  have hlo : 2 ^ m.log2 ≤ m := Nat.log2_self_le hm
  have hhi : m < 2 ^ m.log2 * 2 := by rw [← pow_succ]; exact Nat.lt_log2_self
  rw [roundBits]
  apply pack_eq c neg _ _ sticky d x hN _ h0 h1 hd
  · intro hst
    have : c.N - 2 ≤ m.log2 := (Nat.le_log2 hm).2 (hlen hst)
    simp only; omega
  · rw [hx, zpow_add₀ two_ne_zero, zpow_natCast]
    push_cast [Nat.cast_sub hlo]
    field_simp
    ring
  · simp only; omega

/-- `posit_round` of a nonzero real whose sign is `neg` and whose magnitude is `x` (R105). -/
theorem positRound_of_sign (c : Config) (neg : Bool) (x : ℝ) (hx : 0 < x) :
    Reals.positRound c (if neg then -x else x)
      = if neg then -Reals.roundPositive c x else Reals.roundPositive c x := by
  cases neg <;> simp [Reals.positRound, hx, hx.ne', hx.le]

/-- The sign and the magnitude of an integer. -/
theorem intCast_eq_sign_natAbs (n : Int) :
    (n : ℝ) = if decide (n < 0) = true then -(n.natAbs : ℝ) else (n.natAbs : ℝ) := by
  by_cases h : n < 0
  · simp only [h, decide_true, if_true]
    rw [← Int.cast_natCast, Int.ofNat_natAbs_of_nonpos h.le]; simp
  · simp only [h, decide_false]
    rw [← Int.cast_natCast n.natAbs, Int.natAbs_of_nonneg (by omega)]; simp

/-- `posit_round` of a dyadic rational that is not 0. -/
theorem positRound_eq_of_ne (c : Config) (x : Dyad) (hN : 1 ≤ c.N) (hx : x.num ≠ 0) :
    positRound c x = Reals.positRound c (Reals.ofDyad x) := by
  have hp : 0 < (x.num.natAbs : ℝ) * (2 : ℝ) ^ x.exp := by
    have : 0 < (x.num.natAbs : ℝ) := by exact_mod_cast Int.natAbs_pos.2 hx
    have := zpow_pos (two_pos (α := ℝ)) x.exp
    positivity
  have hv : Reals.ofDyad x = if decide (x.num < 0) = true then -((x.num.natAbs : ℝ) * (2 : ℝ) ^ x.exp)
      else (x.num.natAbs : ℝ) * (2 : ℝ) ^ x.exp := by
    rw [Reals.ofDyad, intCast_eq_sign_natAbs]; split_ifs <;> ring
  rw [positRound, if_neg hx, hv, positRound_of_sign _ _ _ hp]
  exact roundBits_eq c _ _ _ false 0 _ hN (Int.natAbs_ne_zero.2 hx) le_rfl one_pos (by simp) (by simp) (by simp)

/-- What `roundQuotient` computes: `posit_round` of the exact quotient (R126). -/
theorem roundQuotient_eq (c : Config) (x y : Dyad) (hN : 1 ≤ c.N) (hx : x.num ≠ 0) (hy : y.num ≠ 0) :
    roundQuotient c x y = Reals.positRound c (Reals.ofDyad x / Reals.ofDyad y) := by
  set a := x.num.natAbs with ha
  set d := y.num.natAbs with hd
  set sh := c.N + d.log2 + 1 with hsh
  have ha0 : a ≠ 0 := Int.natAbs_ne_zero.2 hx
  have hd0 : d ≠ 0 := Int.natAbs_ne_zero.2 hy
  have hdp : (0 : ℝ) < d := by exact_mod_cast Nat.pos_of_ne_zero hd0
  have hap : (0 : ℝ) < a := by exact_mod_cast Nat.pos_of_ne_zero ha0
  have hxe := zpow_pos (two_pos (α := ℝ)) x.exp
  have hye := zpow_pos (two_pos (α := ℝ)) y.exp
  have hq : 2 ^ c.N ≤ a * 2 ^ sh / d := by
    rw [Nat.le_div_iff_mul_le (Nat.pos_of_ne_zero hd0)]
    calc 2 ^ c.N * d ≤ 2 ^ c.N * 2 ^ (d.log2 + 1) := Nat.mul_le_mul_left _ Nat.lt_log2_self.le
      _ = 2 ^ sh := by rw [← pow_add, hsh, add_assoc]
      _ ≤ a * 2 ^ sh := Nat.le_mul_of_pos_left _ (Nat.pos_of_ne_zero ha0)
  have hmag : Reals.ofDyad x / Reals.ofDyad y =
      if (decide (x.num < 0) != decide (y.num < 0)) = true
        then -((a : ℝ) * 2 ^ x.exp / ((d : ℝ) * 2 ^ y.exp)) else (a : ℝ) * 2 ^ x.exp / ((d : ℝ) * 2 ^ y.exp) := by
    rw [Reals.ofDyad, Reals.ofDyad, intCast_eq_sign_natAbs x.num, intCast_eq_sign_natAbs y.num, ← ha, ← hd]
    by_cases h : x.num < 0 <;> by_cases h' : y.num < 0 <;> simp [h, h', neg_div, div_neg]
  rw [hmag, positRound_of_sign _ _ _ (by positivity), roundQuotient]
  have hr : a * 2 ^ sh % d < d := Nat.mod_lt _ (Nat.pos_of_ne_zero hd0)
  apply roundBits_eq c _ _ _ _ (((a * 2 ^ sh % d : Nat) : ℝ) / d) _ hN
  · exact (lt_of_lt_of_le (by positivity) hq).ne'
  · positivity
  · rw [div_lt_one hdp]; exact_mod_cast hr
  · rw [bne_iff_ne, ne_eq, ne_eq, div_eq_zero_iff, not_or, Nat.cast_eq_zero]
    exact ⟨fun h => ⟨h, hdp.ne'⟩, fun h => h.1⟩
  · exact fun _ => le_trans (Nat.pow_le_pow_right two_pos (by omega)) hq
  · have hdiv : ((a * 2 ^ sh / d : Nat) : ℝ) + ((a * 2 ^ sh % d : Nat) : ℝ) / d = (a : ℝ) * 2 ^ sh / d := by
      rw [eq_div_iff hdp.ne', add_mul, div_mul_cancel₀ _ hdp.ne']
      exact_mod_cast Nat.div_add_mod' (a * 2 ^ sh) d
    rw [hdiv, zpow_sub₀ two_ne_zero, zpow_sub₀ two_ne_zero, zpow_natCast]
    field_simp
    rw [hsh, hd]

/-- What `roundSqrt` computes: `posit_round` of the exact square root (R127). -/
theorem roundSqrt_eq (c : Config) (x : Dyad) (hN : 1 ≤ c.N) (hx : 0 < x.num) :
    roundSqrt c x = Reals.positRound c (Real.sqrt (Reals.ofDyad x)) := by
  set a := x.num.natAbs with ha
  set sh := 2 * c.N + (x.exp % 2).toNat with hsh
  set n := a * 2 ^ sh with hn
  have ha0 : a ≠ 0 := Int.natAbs_ne_zero.2 hx.ne'
  have hnum : (x.num : ℝ) = a := by rw [ha, ← Int.cast_natCast, Int.natAbs_of_nonneg hx.le]
  have hev : x.exp - (sh : Int) = 2 * ((x.exp - (sh : Int)) / 2) := by
    have := Int.emod_nonneg x.exp two_ne_zero
    omega
  set h := (x.exp - (sh : Int)) / 2 with hh
  have hroot : 2 ^ c.N ≤ isqrt n := by
    rw [isqrt_eq, Nat.le_sqrt, ← pow_add, hn]
    exact le_trans (Nat.pow_le_pow_right two_pos (by omega)) (Nat.le_mul_of_pos_left _ (Nat.pos_of_ne_zero ha0))
  have hval : Reals.ofDyad x = (n : ℝ) * ((2 : ℝ) ^ h) ^ 2 := by
    rw [Reals.ofDyad, hnum, hn, ← zpow_natCast ((2 : ℝ) ^ h) 2, ← zpow_mul, mul_comm h, Nat.cast_ofNat, ← hev,
      zpow_sub₀ two_ne_zero, zpow_natCast]
    push_cast; field_simp
  have hz := zpow_pos (two_pos (α := ℝ)) h
  have hs : Real.sqrt (Reals.ofDyad x) = Real.sqrt n * (2 : ℝ) ^ h := by
    rw [hval, Real.sqrt_mul (Nat.cast_nonneg n), Real.sqrt_sq hz.le]
  have hsp : 0 < Real.sqrt n := by
    rw [Real.sqrt_pos]; exact_mod_cast Nat.pos_of_ne_zero (by positivity)
  have hlo : (isqrt n : ℝ) ≤ Real.sqrt n := by
    rw [isqrt_eq]; exact Real.nat_sqrt_le_real_sqrt
  have hhi : Real.sqrt n < (isqrt n : ℝ) + 1 := by
    rw [isqrt_eq]; exact Real.real_sqrt_lt_nat_sqrt_succ
  have h' := positRound_of_sign c false (Real.sqrt (Reals.ofDyad x)) (by rw [hs]; positivity)
  simp only [Bool.false_eq_true, if_false] at h'
  rw [h', roundSqrt]
  rw [roundBits_eq c false _ _ _ (Real.sqrt n - isqrt n) (Real.sqrt (Reals.ofDyad x)) hN]
  · simp
  · exact (lt_of_lt_of_le (by positivity) hroot).ne'
  · linarith
  · linarith
  · rw [bne_iff_ne, ne_eq, ne_eq, sub_eq_zero, Real.sqrt_eq_iff_mul_self_eq (Nat.cast_nonneg n) (Nat.cast_nonneg _)]
    constructor
    · intro h1 h2; exact h1 (by exact_mod_cast h2.symm)
    · intro h1 h2; exact h1 (by exact_mod_cast h2.symm)
  · exact fun _ => le_trans (Nat.pow_le_pow_right two_pos (by omega)) hroot
  · rw [hs]; ring

end Sys2Proof.Machine
end

