-- ==== Sys2Proof/Laws/Arith.lean ====
section
/-! SUPPORT. The special-operand rule of spec/42_arith.md R121, once for all commands, and packing as the inverse of
the field decode (spec/40_codec.md R87). -/

namespace Sys2Proof.Machine

open Sys2Proof

variable (c : Config)

/-! ### NaR first (R121) -/

theorem value_positNaR : value c (positNaR c) = none := (value_eq_none_iff c _).2 rfl

theorem onValue_nar (f : Dyad → BitVec c.N) : onValue c f (positNaR c) = positNaR c := by
  rw [onValue, value_positNaR]

theorem onValue_some (f : Dyad → BitVec c.N) {a : BitVec c.N} {x : Dyad} (h : value c a = some x) :
    onValue c f a = f x := by rw [onValue, h]

theorem onValues_nar (f : Dyad → Dyad → BitVec c.N) {a b : BitVec c.N} (h : a = positNaR c ∨ b = positNaR c) :
    onValues c f a b = positNaR c := by
  unfold onValues
  split
  · rename_i x y h1 h2
    rcases h with rfl | rfl
    · rw [value_positNaR] at h1; cases h1
    · rw [value_positNaR] at h2; cases h2
  · rfl

theorem onValues_some (f : Dyad → Dyad → BitVec c.N) {a b : BitVec c.N} {x y : Dyad} (h1 : value c a = some x)
    (h2 : value c b = some y) : onValues c f a b = f x y := by rw [onValues, h1, h2]

/-- The sign bit is the sign of the value. -/
theorem value_num_neg_iff {p : BitVec c.N} {d : Dyad} (h : value c p = some d) : d.num < 0 ↔ signBit c p = true := by
  have hs := significand_pos c p
  simp only [value, isNaR, isZero, beq_iff_eq] at h
  split_ifs at h with h1 h2
  · cases h; simp [h2, Dyad.ofInt, signBit, positZero]
  · cases h; simp only [finiteValue]; split_ifs with h3
    · simp [h3]; omega
    · simp [h3]

/-! ### The magnitude pattern is the regime string and the tail (R81 to R83, R100) -/

variable (p : BitVec c.N)

theorem regimeLength_regimeValue (hN : 3 ≤ c.N) : regimeLength (regimeValue c p) = regimeRun c p := by
  have h := regimeRun_pos c p hN
  rw [regimeLength, regimeValue]; split_ifs <;> omega

/-- The bits of the magnitude above the tail are the regime string. -/
theorem magnitude_div (hN : 3 ≤ c.N) (h0 : p ≠ positZero c) (h1 : p ≠ positNaR c) (hm : regimeRun c p ≤ c.N - 2) :
    (magnitude c p).toNat / 2 ^ tailLength c p = (regimeString (regimeValue c p)).val := by
  have hlt := (magnitude_range c (by omega) p h0 h1).2
  have hpos := regimeRun_pos c p hN
  have hrem := tailLength_eq c p hN
  have hrun : regimeRun c p < c.N - 1 := by omega
  have hends : (magnitude c p).getLsbD (tailLength c p) = ! regimeBit c p := by
    have := leadingRun_ends (magnitude c p) (regimeBit c p) (c.N - 1) hrun
    rw [show c.N - 1 - 1 - leadingRun (magnitude c p) (regimeBit c p) (c.N - 1) = tailLength c p by
      rw [hrem, ← regimeRun]; omega] at this
    exact this
  have hbit : ∀ i, (magnitude c p).toNat.testBit (i + tailLength c p)
      = if i = 0 then ! regimeBit c p else if i ≤ regimeRun c p then regimeBit c p else false := by
    intro i
    split_ifs with hi hi2
    · subst hi; rw [zero_add]; exact hends
    · have := leadingRun_bits (magnitude c p) (regimeBit c p) (c.N - 1) (regimeRun c p - i) (by rw [← regimeRun]; omega)
      rwa [show c.N - 1 - 1 - (regimeRun c p - i) = i + tailLength c p by omega] at this
    · exact Nat.testBit_lt_two_pow (lt_of_lt_of_le hlt (Nat.pow_le_pow_right two_pos (by omega)))
  apply Nat.eq_of_testBit_eq
  intro i
  rw [Nat.testBit_div_two_pow, hbit]
  rw [regimeString, regimeLength_regimeValue c p hN]
  rcases hr : regimeBit c p with _ | _
  · have hk : ¬ 0 ≤ regimeValue c p := by rw [regimeValue, hr]; simp; omega
    simp only [hk, if_false]
    rcases i with _ | i <;> simp [Nat.testBit_succ]
  · have hk : 0 ≤ regimeValue c p := by rw [regimeValue, hr]; simp; omega
    simp only [hk, if_true]
    have h2 : 2 ^ (regimeRun c p + 1) - 2 = 2 * (2 ^ regimeRun c p - 1) := by rw [pow_succ]; omega
    rw [h2]
    rcases i with _ | i
    · simp
    · rw [Nat.testBit_succ, Nat.mul_div_cancel_left _ two_pos, Nat.testBit_two_pow_sub_one]
      by_cases h : i < regimeRun c p
      · simp [h, Nat.succ_le_of_lt h]
      · simp [h]

/-- A run that fills the word is MAXPOS. -/
theorem magnitude_of_full_run (hN : 3 ≤ c.N) (h0 : p ≠ positZero c) (h1 : p ≠ positNaR c)
    (hm : regimeRun c p = c.N - 1) : magnitude c p = positMaxPos c := by
  have hlt := (magnitude_range c (by omega) p h0 h1).2
  have hb := regimeBit_of_full_run c p hN h0 h1 hm
  have hpow : 2 ^ (c.N - 1) ≤ 2 ^ c.N := Nat.pow_le_pow_right two_pos (by omega)
  have hpow1 : 0 < 2 ^ (c.N - 1) := by positivity
  apply BitVec.eq_of_toNat_eq
  rw [positMaxPos, BitVec.toNat_ofNat, Nat.mod_eq_of_lt (by omega)]
  apply Nat.eq_of_testBit_eq
  intro i
  rw [Nat.testBit_two_pow_sub_one]
  by_cases hi : i < c.N - 1
  · have := leadingRun_bits (magnitude c p) (regimeBit c p) (c.N - 1) (c.N - 1 - 1 - i) (by rw [← regimeRun, hm]; omega)
    rw [show c.N - 1 - 1 - (c.N - 1 - 1 - i) = i by omega, hb] at this
    simp only [hi, decide_true]; exact this
  · simp only [hi, decide_false]
    exact Nat.testBit_lt_two_pow (lt_of_lt_of_le hlt (Nat.pow_le_pow_right two_pos (by omega)))

/-! ### Packing inverts decoding (R87) -/

theorem scaleRegime_scaleOf : scaleRegime c (scaleOf c p) = regimeValue c p := by
  have h := exponent_lt c p
  rw [scaleRegime, scaleOf, add_comm, Int.add_mul_ediv_right _ _ (pow2_pos c.ES).ne', Int.ediv_eq_zero_of_lt]
  · simp
  · positivity
  · rw [pow2_eq]; exact_mod_cast h

theorem scaleExponent_scaleOf : scaleExponent c (scaleOf c p) = exponent c p := by
  rw [scaleExponent, scaleRegime_scaleOf, scaleOf]; simp

/-- A code point that is a whole number rounds to itself. -/
theorem roundCode_natCast (n : Nat) : Reals.roundCode (n : ℝ) = n := by
  have : ⌊2 * (n : ℝ)⌋₊ = 2 * n := by
    rw [show (2 : ℝ) * n = ((2 * n : Nat) : ℝ) by push_cast; ring, Nat.floor_natCast]
  rw [Reals.roundCode, this]; simp

/-- Packing the decoded scale with the fraction bits, padded to any length, returns the magnitude. -/
theorem packMagnitude_of_fields (hN : 3 ≤ c.N) (h0 : p ≠ positZero c) (h1 : p ≠ positNaR c) (pad : Nat) :
    packMagnitude c (regimeValue c p) (exponent c p)
      { len := fractionLength c p + pad, val := fraction c p * 2 ^ pad } false = magnitude c p := by
  have hle := regimeRun_le c p
  rw [packMagnitude, regimeLength_regimeValue c p hN]
  by_cases hm : regimeRun c p = c.N - 1
  · have hb := regimeBit_of_full_run c p hN h0 h1 hm
    have hk : 0 ≤ regimeValue c p := by rw [regimeValue, if_pos hb]; omega
    rw [if_pos (by omega), if_pos hk, magnitude_of_full_run c p hN h0 h1 hm]
  · rw [if_neg (by omega)]
    have hdiv := magnitude_div c p hN h0 h1 (by omega)
    have hrem := tailLength_eq c p hN
    have hu : (magnitude c p).toNat
        = (regimeString (regimeValue c p)).val * 2 ^ tailLength c p + tailBits c p := by
      rw [← hdiv, tailBits, Nat.div_add_mod']
    have hT := exponent_fraction_eq c p
    have hround : roundString c (fieldString c (regimeValue c p) (exponent c p)
        { len := fractionLength c p + pad, val := fraction c p * 2 ^ pad }) false = (magnitude c p).toNat := by
      rw [← roundCode_natCast (magnitude c p).toNat]
      refine roundString_eq c _ false 0 _ (by omega) le_rfl one_pos (by simp) (by simp) ?_
      simp only [fieldString, BitStr.append_len, BitStr.append_val, regimeString_len, ← regimeLength_eq,
        regimeLength_regimeValue c p hN]
      have hlen : (c.N : ℤ) - 1 - ((regimeRun c p + 1 + c.ES + (fractionLength c p + pad) : Nat) : ℤ)
          = (tailLength c p : ℤ) - c.ES - fractionLength c p - pad := by
        push_cast; omega
      rw [hlen, hu, fractionLength]
      have hT' : ((exponent c p : Nat) : ℝ) * 2 ^ fractionLength c p + (fraction c p : ℝ)
          = (tailBits c p : ℝ) * 2 ^ (c.ES - tailLength c p) := by exact_mod_cast hT
      have hes : (2 : ℝ) ^ c.ES * 2 ^ (tailLength c p - c.ES) = 2 ^ tailLength c p * 2 ^ (c.ES - tailLength c p) := by
        rw [← pow_add, ← pow_add]; congr 1; omega
      rw [zpow_sub₀ two_ne_zero, zpow_sub₀ two_ne_zero, zpow_sub₀ two_ne_zero, zpow_natCast, zpow_natCast,
        zpow_natCast, zpow_natCast]
      push_cast
      rw [fractionLength] at hT'
      field_simp
      rw [pow_add]
      linear_combination ((tailBits c p : ℝ) * 2 ^ pad) * hes - ((2 : ℝ) ^ tailLength c p * 2 ^ pad) * hT'
    rw [hround]; simp

end Sys2Proof.Machine
end

