-- ==== Sys2Proof/Laws/State.lean ====
section
/-! SUPPORT. One lemma per field per update of the state, each true by rfl, so that no proof unfolds a record update. -/

namespace Sys2Proof.Machine

variable (s : State)

/-! ### `respond` -/

@[simp] theorem respond_cfg (r : Response) : (s.respond r).cfg = s.cfg := rfl
@[simp] theorem respond_q (r : Response) : (s.respond r).q = s.q := rfl
@[simp] theorem respond_resp (r : Response) : (s.respond r).resp = some r := rfl
@[simp] theorem respond_pending (r : Response) : (s.respond r).pending = s.pending := rfl
@[simp] theorem respond_hosts (r : Response) : (s.respond r).hosts = s.hosts := rfl

/-! ### `respondPosit` -/

@[simp] theorem respondPosit_cfg (z : BitVec s.cfg.N) : (s.respondPosit z).cfg = s.cfg := rfl
@[simp] theorem respondPosit_q (z : BitVec s.cfg.N) : (s.respondPosit z).q = s.q := rfl
@[simp] theorem respondPosit_resp (z : BitVec s.cfg.N) : (s.respondPosit z).resp = some (Response.ofPosit s.cfg z) := rfl
@[simp] theorem respondPosit_pending (z : BitVec s.cfg.N) : (s.respondPosit z).pending = s.pending := rfl
@[simp] theorem respondPosit_hosts (z : BitVec s.cfg.N) : (s.respondPosit z).hosts = s.hosts := rfl

/-! ### `completeWithQ` -/

@[simp] theorem completeWithQ_cfg (v : BitVec s.cfg.QW) : (s.completeWithQ v).cfg = s.cfg := rfl
@[simp] theorem completeWithQ_q (v : BitVec s.cfg.QW) : (s.completeWithQ v).q = v := rfl
@[simp] theorem completeWithQ_resp (v : BitVec s.cfg.QW) : (s.completeWithQ v).resp = some Response.empty := rfl
@[simp] theorem completeWithQ_pending (v : BitVec s.cfg.QW) : (s.completeWithQ v).pending = s.pending := rfl
@[simp] theorem completeWithQ_hosts (v : BitVec s.cfg.QW) : (s.completeWithQ v).hosts = s.hosts := rfl

/-! ### `takeReset` -/

@[simp] theorem takeReset_cfg : (s.takeReset).cfg = s.cfg := rfl
@[simp] theorem takeReset_q : (s.takeReset).q = 0 := rfl
@[simp] theorem takeReset_resp : (s.takeReset).resp = none := rfl
@[simp] theorem takeReset_pending : (s.takeReset).pending = s.pending := rfl
@[simp] theorem takeReset_hosts : (s.takeReset).hosts = s.hosts := rfl

/-! ### `present` -/

@[simp] theorem present_cfg (p : List Instr) : (s.present p).cfg = s.cfg := rfl
@[simp] theorem present_q (p : List Instr) : (s.present p).q = s.q := rfl
@[simp] theorem present_resp (p : List Instr) : (s.present p).resp = s.resp := rfl
@[simp] theorem present_pending (p : List Instr) : (s.present p).pending = s.pending ++ (encodeProgram p).map HostEvent.command := rfl
@[simp] theorem present_hosts (p : List Instr) : (s.present p).hosts = s.hosts := rfl

/-! ### `presentTableWord` -/

@[simp] theorem presentTableWord_cfg (n w : Nat) : (presentTableWord s n w).cfg = s.cfg := rfl
@[simp] theorem presentTableWord_q (n w : Nat) : (presentTableWord s n w).q = s.q := rfl
@[simp] theorem presentTableWord_resp (n w : Nat) : (presentTableWord s n w).resp = s.resp := rfl
@[simp] theorem presentTableWord_pending (n w : Nat) : (presentTableWord s n w).pending = .command (Cmd.ofTableWord n w) :: s.pending := rfl
@[simp] theorem presentTableWord_hosts (n w : Nat) : (presentTableWord s n w).hosts = s.hosts := rfl

/-! ### `withFetchWord` -/

@[simp] theorem withFetchWord_cfg (n w : Nat) : (s.withFetchWord n w).cfg = s.cfg := rfl
@[simp] theorem withFetchWord_q (n w : Nat) : (s.withFetchWord n w).q = s.q := rfl
@[simp] theorem withFetchWord_resp (n w : Nat) : (s.withFetchWord n w).resp = s.resp := rfl
@[simp] theorem withFetchWord_pending (n w : Nat) : (s.withFetchWord n w).pending = .command (Cmd.ofTableWord n w) :: s.pending := rfl
@[simp] theorem withFetchWord_hosts (n w : Nat) : (s.withFetchWord n w).hosts = s.hosts := rfl

/-! ### `withResult` -/

@[simp] theorem withResult_cfg (z : BitVec s.cfg.N) : (withResult s z).cfg = s.cfg := rfl
@[simp] theorem withResult_q (z : BitVec s.cfg.N) : (withResult s z).q = s.q := rfl
@[simp] theorem withResult_resp (z : BitVec s.cfg.N) : (withResult s z).resp = some (Response.ofPosit s.cfg z) := rfl
@[simp] theorem withResult_pending (z : BitVec s.cfg.N) : (withResult s z).pending = s.pending := rfl
@[simp] theorem withResult_hosts (z : BitVec s.cfg.N) : (withResult s z).hosts = s.hosts := rfl

/-! ### `withWord` -/

@[simp] theorem withWord_cfg (v : QuireWord) : (withWord s v).cfg = s.cfg := rfl
@[simp] theorem withWord_q (v : QuireWord) : (withWord s v).q = s.q := rfl
@[simp] theorem withWord_resp (v : QuireWord) : (withWord s v).resp = some (Response.ofWord v) := rfl
@[simp] theorem withWord_pending (v : QuireWord) : (withWord s v).pending = s.pending := rfl
@[simp] theorem withWord_hosts (v : QuireWord) : (withWord s v).hosts = s.hosts := rfl

/-! ### `withQuire` -/

@[simp] theorem withQuire_cfg (v : BitVec s.cfg.QW) : (withQuire s v).cfg = s.cfg := rfl
@[simp] theorem withQuire_q (v : BitVec s.cfg.QW) : (withQuire s v).q = v := rfl
@[simp] theorem withQuire_resp (v : BitVec s.cfg.QW) : (withQuire s v).resp = some Response.empty := rfl
@[simp] theorem withQuire_pending (v : BitVec s.cfg.QW) : (withQuire s v).pending = s.pending := rfl
@[simp] theorem withQuire_hosts (v : BitVec s.cfg.QW) : (withQuire s v).hosts = s.hosts := rfl

/-! ### `withLatency` -/

@[simp] theorem withLatency_cfg (n : Nat) : (withLatency n s).cfg = { s.cfg with LAT := n } := rfl
@[simp] theorem withLatency_q (n : Nat) : (withLatency n s).q = s.q := rfl
@[simp] theorem withLatency_resp (n : Nat) : (withLatency n s).resp = s.resp := rfl
@[simp] theorem withLatency_pending (n : Nat) : (withLatency n s).pending = s.pending := rfl
@[simp] theorem withLatency_hosts (n : Nat) : (withLatency n s).hosts = s.hosts := rfl

/-! ### Reset -/

variable (c : Config)

@[simp] theorem resetFor_cfg : (State.resetFor c).cfg = c := rfl
@[simp] theorem resetFor_q : (State.resetFor c).q = 0 := rfl
@[simp] theorem resetFor_resp : (State.resetFor c).resp = none := rfl
@[simp] theorem resetFor_pending : (State.resetFor c).pending = [] := rfl
@[simp] theorem resetFor_hosts : (State.resetFor c).hosts = 1 := rfl

/-! ### The operations the meanings share are the updates the claims speak of -/

theorem respondPosit_eq (z : BitVec s.cfg.N) : s.respondPosit z = withResult s z := rfl
theorem completeWithQ_eq (v : BitVec s.cfg.QW) : s.completeWithQ v = withQuire s v := rfl
theorem respondWord_eq (v : QuireWord) : s.respond (Response.ofWord v) = withWord s v := rfl

end Sys2Proof.Machine
end

