-- ==== Sys2Proof/Laws/Exec.lean ====
section
/-! SUPPORT. What each command answers, one equation each: the next state of every command that always completes, and
the two outcomes of QRD and QWR. A proof about `exec` cites these and unfolds no meaning. -/

namespace Sys2Proof.Machine

variable (s : State)

theorem exec_pdec (a : Bus) :
    exec (.pdec a) s = .next (s.respond (decodeResponse s.cfg (operandPosit s.cfg a))) := rfl

theorem exec_penc (sgn : Bool) (scale : Half) (frac : QuireWord) (stk : Bool) :
    exec (.penc sgn scale frac stk) s = .next (withResult s (pack s.cfg sgn scale.toInt { len := 64, val := frac.toNat } stk)) := rfl

theorem exec_pneg (a : Bus) :
    exec (.pneg a) s = .next (withResult s (-operandPosit s.cfg a)) := rfl

theorem exec_padd (a b : Bus) :
    exec (.padd a b) s = .next (withResult s (positAdd s.cfg (operandPosit s.cfg a) (operandPosit s.cfg b))) := rfl

theorem exec_psub (a b : Bus) :
    exec (.psub a b) s = .next (withResult s (positSub s.cfg (operandPosit s.cfg a) (operandPosit s.cfg b))) := rfl

theorem exec_pmul (a b : Bus) :
    exec (.pmul a b) s = .next (withResult s (positMul s.cfg (operandPosit s.cfg a) (operandPosit s.cfg b))) := rfl

theorem exec_pdiv (a b : Bus) :
    exec (.pdiv a b) s = .next (withResult s (positDiv s.cfg (operandPosit s.cfg a) (operandPosit s.cfg b))) := rfl

theorem exec_psqrt (a : Bus) :
    exec (.psqrt a) s = .next (withResult s (positSqrt s.cfg (operandPosit s.cfg a))) := rfl

theorem exec_prnd (a : Bus) :
    exec (.prnd a) s = .next (withResult s (positNearest s.cfg (operandPosit s.cfg a))) := rfl

theorem exec_pflr (a : Bus) :
    exec (.pflr a) s = .next (withResult s (positFloor s.cfg (operandPosit s.cfg a))) := rfl

theorem exec_pceil (a : Bus) :
    exec (.pceil a) s = .next (withResult s (positCeil s.cfg (operandPosit s.cfg a))) := rfl

theorem exec_qclr :
    exec (.qclr) s = .next (withQuire s 0) := rfl

theorem exec_qneg :
    exec (.qneg) s = .next (withQuire s (BitVec.ofInt s.cfg.QW (-s.q.toInt))) := rfl

theorem exec_qmadd (a b : Bus) :
    exec (.qmadd a b) s = .next (withQuire s (quireAccumulate s.cfg false s.q (operandPosit s.cfg a) (operandPosit s.cfg b))) := rfl

theorem exec_qmsub (a b : Bus) :
    exec (.qmsub a b) s = .next (withQuire s (quireAccumulate s.cfg true s.q (operandPosit s.cfg a) (operandPosit s.cfg b))) := rfl

theorem exec_qtop :
    exec (.qtop) s = .next (withResult s (quireToPosit s.cfg s.q)) := rfl

theorem exec_qrd {idx : Half} (h : idx.toNat < s.cfg.quireWords) :
    exec (.qrd idx) s = .next (withWord s (quireRead s.cfg s.q idx.toNat)) := if_pos h

theorem exec_qrd_refused {idx : Half} (h : ¬ idx.toNat < s.cfg.quireWords) :
    exec (.qrd idx) s = .refused (.quireIndexOutOfRange idx) := if_neg h

theorem exec_qwr {idx : Half} (data : QuireWord) (h : idx.toNat < s.cfg.quireWords) :
    exec (.qwr idx data) s = .next (withQuire s (quireWrite s.cfg s.q idx.toNat data)) := if_pos h

theorem exec_qwr_refused {idx : Half} (data : QuireWord) (h : ¬ idx.toNat < s.cfg.quireWords) :
    exec (.qwr idx data) s = .refused (.quireIndexOutOfRange idx) := if_neg h

/-- The commands that change `Q` (R62). -/
def writesQuire : Instr → Bool
  | .qclr => true
  | .qneg => true
  | .qmadd _ _ => true
  | .qmsub _ _ => true
  | .qwr _ _ => true
  | .pdec _ => false
  | .penc _ _ _ _ => false
  | .pneg _ => false
  | .padd _ _ => false
  | .psub _ _ => false
  | .pmul _ _ => false
  | .pdiv _ _ => false
  | .psqrt _ => false
  | .prnd _ => false
  | .pflr _ => false
  | .pceil _ => false
  | .qtop => false
  | .qrd _ => false

/-- All that a command can do to the state: it writes `Q` and answers an empty response, or it writes a response and
leaves `Q` as it was. -/
theorem exec_next_cases (i : Instr) (s t : State) (h : exec i s = .next t) :
    (writesQuire i = true ∧ ∃ v, t = withQuire s v) ∨ (writesQuire i = false ∧ ∃ r, t = s.respond r) := by
  cases i
  case qrd idx =>
    by_cases hi : idx.toNat < s.cfg.quireWords
    · rw [exec_qrd s hi] at h; cases h; exact .inr ⟨rfl, _, rfl⟩
    · rw [exec_qrd_refused s hi] at h; cases h
  case qwr idx data =>
    by_cases hi : idx.toNat < s.cfg.quireWords
    · rw [exec_qwr s data hi] at h; cases h; exact .inl ⟨rfl, _, rfl⟩
    · rw [exec_qwr_refused s data hi] at h; cases h
  all_goals cases h
  all_goals first
    | exact .inl ⟨rfl, _, rfl⟩
    | exact .inr ⟨rfl, _, rfl⟩

/-- No command changes the configuration. -/
theorem exec_keeps_cfg {i : Instr} {s t : State} (h : exec i s = .next t) : t.cfg = s.cfg := by
  rcases exec_next_cases i s t h with ⟨-, v, rfl⟩ | ⟨-, r, rfl⟩ <;> rfl

/-- No command changes what the host presents later. -/
theorem exec_keeps_pending {i : Instr} {s t : State} (h : exec i s = .next t) : t.pending = s.pending := by
  rcases exec_next_cases i s t h with ⟨-, v, rfl⟩ | ⟨-, r, rfl⟩ <;> rfl

/-- No command changes the number of hosts. -/
theorem exec_keeps_hosts {i : Instr} {s t : State} (h : exec i s = .next t) : t.hosts = s.hosts := by
  rcases exec_next_cases i s t h with ⟨-, v, rfl⟩ | ⟨-, r, rfl⟩ <;> rfl

/-! ### The step -/

theorem instanceRefusal_eq_none_iff (s : State) : instanceRefusal s = none ↔ s.instanceLegal := by
  unfold instanceRefusal State.instanceLegal
  by_cases h : s.cfg.Legal
  · by_cases h' : 1 < s.hosts
    · rw [if_neg (not_not.2 h), if_pos h']; exact iff_of_false (by simp) fun hh => by omega
    · rw [if_neg (not_not.2 h), if_neg h']; exact iff_of_true rfl ⟨h, by omega⟩
  · rw [if_pos h]; exact iff_of_false (by simp) fun hh => h hh.1

/-- A step of a legal instance takes the first thing the host presents. -/
theorem step_of_legal {s : State} (h : s.instanceLegal) :
    step s = match s.pending with
      | [] => .next s
      | ev :: rest => takeEvent ev { s with pending := rest } := by
  rw [step, (instanceRefusal_eq_none_iff s).2 h]; rfl

/-- Whatever a step answers with a next state, the instance was legal. -/
theorem legal_of_step_next {s t : State} (h : step s = .next t) : s.instanceLegal := by
  by_contra hl
  rw [← instanceRefusal_eq_none_iff] at hl
  cases hr : instanceRefusal s with
  | none => exact hl hr
  | some r => rw [step, hr] at h; cases h

/-- All that presenting a command can do. -/
theorem runCommand_next {cmd : Cmd} {s t : State} (h : runCommand cmd s = .next t) :
    ∃ i, decode cmd = .ok i ∧ exec i s = .next t := by
  unfold runCommand at h
  split at h
  · exact ⟨_, ‹_›, h⟩
  · cases h

/-- All that one step can do. -/
theorem step_next_cases {s t : State} (h : step s = .next t) :
    s.instanceLegal ∧
    ((s.pending = [] ∧ t = s) ∨
     (∃ cmd rest i, s.pending = .command cmd :: rest ∧ decode cmd = .ok i ∧
       exec i { s with pending := rest } = .next t) ∨
     (∃ rest, s.pending = .reset :: rest ∧ t = State.takeReset { s with pending := rest }) ∨
     (∃ cmd rest, s.pending = .resetDuring cmd :: rest ∧ t = State.takeReset { s with pending := rest })) := by
  have hl := legal_of_step_next h
  refine ⟨hl, ?_⟩
  rw [step_of_legal hl] at h
  split at h
  · cases h; exact .inl ⟨‹_›, rfl⟩
  · rename_i ev rest hp
    cases ev with
    | command cmd =>
      obtain ⟨i, hd, he⟩ := runCommand_next h
      exact .inr (.inl ⟨cmd, rest, i, hp, hd, he⟩)
    | reset => cases h; exact .inr (.inr (.inl ⟨rest, hp, rfl⟩))
    | resetDuring cmd =>
      simp only [takeEvent, abandonCommand] at h
      split at h
      · cases h; exact .inr (.inr (.inr ⟨cmd, rest, hp, rfl⟩))
      all_goals cases h

/-! ### Runs -/

theorem run_zero (s : State) : Host.Core.run Sys2Proof.core 0 s = .next s := rfl

/-- A run goes on from the state its first step answers. -/
theorem run_succ (n : Nat) {s t : State} (h : step s = .next t) :
    Host.Core.run Sys2Proof.core (n + 1) s = Host.Core.run Sys2Proof.core n t := by
  have h' : Sys2Proof.core.step s = .next t := h
  exact (Host.Core.run.eq_2 Sys2Proof.core s n).trans (by rw [h'])

end Sys2Proof.Machine
end

