-- ==== Sys2Proof/Laws/PerInstr.lean ====
section
/-! SUPPORT. Facts made command by command (LAWS.json "per_instruction"): one lemma per constructor of `Instr`. -/

namespace Sys2Proof.Laws.RecordRoundTrip

/-- The record of a command decodes to the command, with every operand (R64, R69). -/
def Statement (i : Instr) : Prop := decode (encode i) = .ok i

theorem pdec (a : Bus) : Statement (.pdec a) := rfl
theorem penc (sgn : Bool) (scale : Half) (frac : QuireWord) (stk : Bool) : Statement (.penc sgn scale frac stk) := rfl
theorem pneg (a : Bus) : Statement (.pneg a) := rfl
theorem padd (a b : Bus) : Statement (.padd a b) := rfl
theorem psub (a b : Bus) : Statement (.psub a b) := rfl
theorem pmul (a b : Bus) : Statement (.pmul a b) := rfl
theorem pdiv (a b : Bus) : Statement (.pdiv a b) := rfl
theorem psqrt (a : Bus) : Statement (.psqrt a) := rfl
theorem prnd (a : Bus) : Statement (.prnd a) := rfl
theorem pflr (a : Bus) : Statement (.pflr a) := rfl
theorem pceil (a : Bus) : Statement (.pceil a) := rfl
theorem qclr : Statement .qclr := rfl
theorem qneg : Statement .qneg := rfl
theorem qmadd (a b : Bus) : Statement (.qmadd a b) := rfl
theorem qmsub (a b : Bus) : Statement (.qmsub a b) := rfl
theorem qtop : Statement .qtop := rfl
theorem qrd (idx : Half) : Statement (.qrd idx) := rfl
theorem qwr (idx : Half) (data : QuireWord) : Statement (.qwr idx data) := rfl

end Sys2Proof.Laws.RecordRoundTrip
end

