-- ==== Sys2Proof/Laws/Quire.lean ====
section
/-! SUPPORT. The quire's word view bit by bit (spec/20_memory.md R42, R43), and the exactness of products in the quire
(spec/43_quire.md R160). -/

namespace Sys2Proof.Machine

open Sys2Proof

variable (c : Config) (q : BitVec c.QW)

theorem viewBits_eq : viewBits c = 64 * c.quireWords := rfl

theorem quireWidth_le_viewBits : c.QW ≤ viewBits c := by
  rw [viewBits, Config.quireWords]; omega

theorem wordShift_eq {i : Nat} (h : i < c.quireWords) : wordShift c i = 64 * (c.quireWords - 1 - i) := by
  rw [wordShift, viewBits]; omega

theorem quireView_getLsbD {j : Nat} (h : j < viewBits c) :
    (quireView c q).getLsbD j = if j < c.QW then q.getLsbD j else q.msb := by
  rw [quireView, BitVec.getLsbD_signExtend]; simp [h]

/-- `QRead(i)` bit by bit. -/
theorem quireRead_getLsbD {i j : Nat} (hi : i < c.quireWords) (hj : j < 64) :
    (quireRead c q i).getLsbD j
      = if 64 * (c.quireWords - 1 - i) + j < c.QW then q.getLsbD (64 * (c.quireWords - 1 - i) + j) else q.msb := by
  rw [quireRead, BitVec.getLsbD_extractLsb', wordShift_eq c hi,
    quireView_getLsbD c q (by rw [viewBits]; omega)]
  simp [hj]

/-- `QWrite(i, v)` bit by bit. -/
theorem quireWrite_getLsbD {i j : Nat} (v : QuireWord) (hi : i < c.quireWords) (hj : j < c.QW) :
    (quireWrite c q i v).getLsbD j
      = if 64 * (c.quireWords - 1 - i) ≤ j ∧ j < 64 * (c.quireWords - 1 - i) + 64
          then v.getLsbD (j - 64 * (c.quireWords - 1 - i)) else q.getLsbD j := by
  have hP : j < viewBits c := lt_of_lt_of_le hj (quireWidth_le_viewBits c)
  simp only [quireWrite, wordMask, BitVec.getLsbD_setWidth, BitVec.getLsbD_or, BitVec.getLsbD_and, BitVec.getLsbD_not,
    BitVec.getLsbD_shiftLeft, quireView_getLsbD c q hP, BitVec.getLsbD_allOnes, wordShift_eq c hi, hj, hP, if_true]
  by_cases h1 : j < 64 * (c.quireWords - 1 - i)
  · simp [h1]
  · by_cases h2 : j < 64 * (c.quireWords - 1 - i) + 64
    · have : j - 64 * (c.quireWords - 1 - i) < viewBits c := by omega
      have h3 : j - 64 * (c.quireWords - 1 - i) < 64 := by omega
      simp [h1, h2, this, h3, not_lt.1 h1]
    · have h3 : ¬ j - 64 * (c.quireWords - 1 - i) < 64 := by omega
      have h4 : v.getLsbD (j - 64 * (c.quireWords - 1 - i)) = false :=
        BitVec.getLsbD_of_ge _ _ (by omega)
      simp [h1, h2, h3, h4]

/-! ### Products (R160) -/

/-- The last bit of a posit weighs at least `2^(-2^ES*(N-2))`, so that every value is a multiple of MINPOS. -/
theorem finiteValue_exp_ge (p : BitVec c.N) (hc : c.Legal) (h0 : p ≠ positZero c) (h1 : p ≠ positNaR c) :
    -(2 ^ c.ES * (c.N - 2 : Nat) : Int) ≤ (finiteValue c p).exp := by
  obtain ⟨hN, -⟩ := hc
  have hm := regimeRun_le c p
  have hm1 := regimeRun_pos c p hN
  have hfull := regimeBit_of_full_run c p hN h0 h1
  have hp : (1 : Int) ≤ 2 ^ c.ES := one_le_pow₀ (by norm_num)
  have hnf : (fractionLength c p : Int) ≤ (c.N - 2 - regimeRun c p : Nat) := by
    rw [fractionLength, tailLength_eq c p hN]; omega
  simp only [finiteValue, scaleOf, pow2_eq, regimeValue]
  split_ifs with h
  · have : (0 : Int) ≤ ((regimeRun c p : Int) - 1) * 2 ^ c.ES := by
      have : (0 : Int) ≤ (regimeRun c p : Int) - 1 := by omega
      positivity
    have h2 : ((c.N - 2 - regimeRun c p : Nat) : Int) ≤ (c.N - 2 : Nat) := by omega
    nlinarith
  · have hm2 : regimeRun c p ≤ c.N - 2 := by
      have : regimeRun c p ≠ c.N - 1 := fun h' => h (hfull h')
      omega
    have h2 : ((c.N - 2 - regimeRun c p : Nat) : Int) = (c.N - 2 : Nat) - (regimeRun c p : Int) := by omega
    rw [h2] at hnf
    have h3 : (0 : Int) ≤ (c.N - 2 : Nat) - (regimeRun c p : Int) := by omega
    nlinarith

theorem value_exp_ge (p : BitVec c.N) (hc : c.Legal) {d : Dyad} (h : value c p = some d) :
    -(2 ^ c.ES * (c.N - 2 : Nat) : Int) ≤ d.exp := by
  simp only [value, isNaR, isZero, beq_iff_eq] at h
  split_ifs at h with h1 h2
  · cases h; simp [Dyad.ofInt]
  · cases h; exact finiteValue_exp_ge c p hc h2 h1

/-- `val(a) * val(b) * 2^QF` is an integer, and the machine computes it. -/
theorem productUnits_eq (hc : c.Legal) {a b : BitVec c.N} {x y : Dyad} (hx : value c a = some x)
    (hy : value c b = some y) :
    ((productUnits c x y : Int) : ℝ) = Reals.ofDyad x * Reals.ofDyad y * 2 ^ c.QF := by
  have h1 := value_exp_ge c a hc hx
  have h2 := value_exp_ge c b hc hy
  obtain ⟨-, -, -, hQ, -⟩ := hc
  have hQ' : (2 * (2 ^ c.ES * (c.N - 2 : Nat)) : Int) ≤ c.QF := by
    have : ((c.productBits : Nat) : Int) ≤ c.QF := by exact_mod_cast hQ
    rw [Config.productBits] at this; push_cast [pow_succ] at this ⊢; linarith
  have he : 0 ≤ x.exp + y.exp + (c.QF : Int) := by linarith
  rw [productUnits, Dyad.floor_eq, ofDyad_shift, ofDyad_mul, zpow_natCast]
  have : Reals.ofDyad x * Reals.ofDyad y * 2 ^ c.QF
      = ((x.num * y.num * 2 ^ (x.exp + y.exp + (c.QF : Int)).toNat : Int) : ℝ) := by
    push_cast
    rw [← zpow_natCast (2 : ℝ) (Int.toNat _), Int.toNat_of_nonneg he, zpow_add₀ two_ne_zero,
      zpow_add₀ two_ne_zero, zpow_natCast, Reals.ofDyad, Reals.ofDyad]
    ring
  rw [this, Int.floor_intCast]

/-- No posit's magnitude exceeds that of MAXPOS, `2^(2^ES*(N-2))`. -/
theorem abs_finiteValue_le (p : BitVec c.N) (hc : c.Legal) (h0 : p ≠ positZero c) (h1 : p ≠ positNaR c) :
    |Reals.ofDyad (finiteValue c p)| ≤ 2 ^ (2 ^ c.ES * (c.N - 2)) := by
  obtain ⟨hN, -⟩ := hc
  have hm := regimeRun_le c p
  have hm1 := regimeRun_pos c p hN
  have hsig : ((significand c p : Nat) : ℝ) < 2 * 2 ^ fractionLength c p := by
    have := fraction_lt c p
    rw [significand]; push_cast
    have : ((fraction c p : Nat) : ℝ) < 2 ^ fractionLength c p := by exact_mod_cast this
    linarith
  have habs : |Reals.ofDyad (finiteValue c p)|
      = (significand c p : ℝ) * (2 : ℝ) ^ (scaleOf c p - (fractionLength c p : Int)) := by
    rw [Reals.ofDyad, abs_mul, abs_of_pos (zpow_pos two_pos _ : (0 : ℝ) < _)]
    simp only [finiteValue]
    split_ifs <;> simp
  rw [habs, zpow_sub₀ two_ne_zero, zpow_natCast, ← zpow_natCast (2 : ℝ) (2 ^ c.ES * (c.N - 2))]
  have hz := zpow_pos (two_pos (α := ℝ)) (scaleOf c p)
  by_cases hfull : regimeRun c p = c.N - 1
  · have hb := regimeBit_of_full_run c p hN h0 h1 hfull
    have ht : tailLength c p = 0 := by rw [tailLength_eq c p hN]; omega
    have hnf : fractionLength c p = 0 := by rw [fractionLength, ht]; simp
    have hs : significand c p = 1 := by rw [significand, hnf, fraction, hnf]; simp [Nat.mod_one]
    have hexp : exponent c p = 0 := by
      have := tailBits_lt c p
      rw [ht] at this
      have : tailBits c p = 0 := by omega
      rw [exponent, this]; simp
    have hk : regimeValue c p = ((c.N - 2 : Nat) : Int) := by rw [regimeValue, if_pos hb]; omega
    have hsc : scaleOf c p = ((2 ^ c.ES * (c.N - 2) : Nat) : Int) := by
      rw [scaleOf, hk, hexp, pow2_eq]; push_cast; ring
    rw [hs, hnf, hsc, Nat.cast_one, pow_zero, div_one, one_mul]
  · have hk : regimeValue c p ≤ ((c.N - 3 : Nat) : Int) := by
      rw [regimeValue]; split_ifs <;> omega
    have he := exponent_lt c p
    have he' : ((exponent c p : Nat) : Int) + 1 ≤ 2 ^ c.ES := by exact_mod_cast he
    have hsc : scaleOf c p + 1 ≤ ((2 ^ c.ES * (c.N - 2) : Nat) : Int) := by
      rw [scaleOf, pow2_eq]; push_cast
      have h3 : ((c.N - 2 : Nat) : Int) = ((c.N - 3 : Nat) : Int) + 1 := by omega
      rw [h3]
      have : (0 : Int) < 2 ^ c.ES := by positivity
      nlinarith
    calc (significand c p : ℝ) * (2 ^ scaleOf c p / 2 ^ fractionLength c p)
        ≤ (2 * 2 ^ fractionLength c p) * (2 ^ scaleOf c p / 2 ^ fractionLength c p) := by
          apply mul_le_mul_of_nonneg_right hsig.le; positivity
      _ = (2 : ℝ) ^ (scaleOf c p + 1) := by rw [zpow_add_one₀ two_ne_zero]; field_simp
      _ ≤ _ := zpow_le_zpow_right₀ one_le_two hsc

end Sys2Proof.Machine
end

