-- ==== Sys2Proof/Machine/Assembler.lean ====
section
/-! DEFINITION. The written form of commands and programs (spec/30_encoding.md R68, R69). A text is a list of
characters. -/

namespace Sys2Proof.Machine

/-- Why a text is no program. -/
inductive AsmError where
  /-- The first line that holds anything is not `.format PnEm` with a format of R3's range. -/
  | badFormatLine
  /-- A line is no command of R68: an unknown mnemonic, a wrong number of operands, or an operand not of its form. -/
  | badCommand (line : List Char)
deriving DecidableEq, Repr

/-- A space or a tab. -/
def isBlank (ch : Char) : Bool := ch == ' ' || ch == '\t' || ch == '\r'

/-- The text without the blanks at its two ends. -/
def trimBlanks (cs : List Char) : List Char := ((cs.dropWhile isBlank).reverse.dropWhile isBlank).reverse

/-- The pieces between the separators `sep`. -/
def splitAt (sep : Char) : List Char → List (List Char)
  | [] => [[]]
  | ch :: rest =>
    match splitAt sep rest with
    | [] => [[ch]]
    | piece :: more => if ch = sep then [] :: piece :: more else (ch :: piece) :: more

/-- The value of a digit in the given base, 10 or 16. -/
def digitValue (base : Nat) (ch : Char) : Option Nat :=
  let n := ch.toNat
  let v := if 48 ≤ n ∧ n ≤ 57 then some (n - 48)
    else if 65 ≤ n ∧ n ≤ 70 then some (n - 55)
    else if 97 ≤ n ∧ n ≤ 102 then some (n - 87)
    else none
  v.bind fun d => if d < base then some d else none

/-- The number of digits and the value of a run of digits, `_` separators left out. -/
def digits (base : Nat) : List Char → Nat → Nat → Option (Nat × Nat)
  | [], count, acc => some (count, acc)
  | ch :: rest, count, acc =>
    if ch = '_' then digits base rest count acc
    else (digitValue base ch).bind fun d => digits base rest (count + 1) (acc * base + d)

/-- An unsigned decimal number. -/
def decimal (cs : List Char) : Option Nat :=
  (digits 10 cs 0 0).bind fun p => if 0 < p.1 ∧ ¬ cs.contains '_' then some p.2 else none

/-- `0x` and hexadecimal digits: their number and their value. -/
def hexadecimal : List Char → Option (Nat × Nat)
  | '0' :: 'x' :: rest => digits 16 rest 0 0
  | _ => none

/-- A posit operand: "its pattern in hexadecimal, `0x` followed by `N/4` digits rounded up" (R68). -/
def positLiteral (c : Config) (cs : List Char) : Option Bus :=
  (hexadecimal cs).bind fun p =>
    if p.1 = (c.N + 3) / 4 ∧ p.2 < 2 ^ c.N then some (BitVec.ofNat 32 p.2) else none

/-- A 64-bit datum or fraction in hexadecimal, 1 to 16 digits (R68). -/
def dataLiteral (cs : List Char) : Option QuireWord :=
  (hexadecimal cs).bind fun p => if 0 < p.1 ∧ p.1 ≤ 16 then some (BitVec.ofNat 64 p.2) else none

/-- A scale: decimal, possibly negative, in the range of R65. -/
def scaleLiteral : List Char → Option Half
  | '-' :: rest => (decimal rest).bind fun n => if n ≤ 32768 then some (BitVec.ofInt 16 (-(n : Int))) else none
  | cs => (decimal cs).bind fun n => if n < 32768 then some (BitVec.ofNat 16 n) else none

/-- A quire word index: decimal, in the range of the field `c` (R65). -/
def indexLiteral (cs : List Char) : Option Half :=
  (decimal cs).bind fun n => if n < 65536 then some (BitVec.ofNat 16 n) else none

/-- A one-bit operand, 0 or 1 (R68). -/
def bitLiteral : List Char → Option Bool
  | ['0'] => some false
  | ['1'] => some true
  | _ => none

/-- `M a` (R68). -/
def oneOperand (c : Config) (ops : List (List Char)) (make : Bus → Instr) : Option Instr :=
  match ops with
  | [a] => (positLiteral c a).map make
  | _ => none

/-- `M a, b` (R68). -/
def twoOperands (c : Config) (ops : List (List Char)) (make : Bus → Bus → Instr) : Option Instr :=
  match ops with
  | [a, b] => (positLiteral c a).bind fun x => (positLiteral c b).map (make x)
  | _ => none

/-- `M` (R68). -/
def noOperand (ops : List (List Char)) (i : Instr) : Option Instr := if ops.isEmpty then some i else none

/-- `PENC s, scale, frac, sticky` (R68). -/
def pencOperands (ops : List (List Char)) : Option Instr :=
  match ops with
  | [s, c, d, t] =>
    (bitLiteral s).bind fun s => (scaleLiteral c).bind fun c => (dataLiteral d).bind fun d =>
      (bitLiteral t).map fun t => .penc s c d t
  | _ => none

/-- `QRD idx` (R68). -/
def qrdOperands (ops : List (List Char)) : Option Instr :=
  match ops with
  | [c] => (indexLiteral c).map .qrd
  | _ => none

/-- `QWR idx, data` (R68). -/
def qwrOperands (ops : List (List Char)) : Option Instr :=
  match ops with
  | [c, d] => (indexLiteral c).bind fun c => (dataLiteral d).map (.qwr c)
  | _ => none

/-- The command of a mnemonic and its operands (R68). "There are no pseudo-instructions." -/
def writtenCommand (c : Config) (mnemonic : List Char) (ops : List (List Char)) : Option Instr :=
  if mnemonic = "PDEC".toList then oneOperand c ops .pdec
  else if mnemonic = "PENC".toList then pencOperands ops
  else if mnemonic = "PNEG".toList then oneOperand c ops .pneg
  else if mnemonic = "PADD".toList then twoOperands c ops .padd
  else if mnemonic = "PSUB".toList then twoOperands c ops .psub
  else if mnemonic = "PMUL".toList then twoOperands c ops .pmul
  else if mnemonic = "PDIV".toList then twoOperands c ops .pdiv
  else if mnemonic = "PSQRT".toList then oneOperand c ops .psqrt
  else if mnemonic = "PRND".toList then oneOperand c ops .prnd
  else if mnemonic = "PFLR".toList then oneOperand c ops .pflr
  else if mnemonic = "PCEIL".toList then oneOperand c ops .pceil
  else if mnemonic = "QCLR".toList then noOperand ops .qclr
  else if mnemonic = "QNEG".toList then noOperand ops .qneg
  else if mnemonic = "QMADD".toList then twoOperands c ops .qmadd
  else if mnemonic = "QMSUB".toList then twoOperands c ops .qmsub
  else if mnemonic = "QTOP".toList then noOperand ops .qtop
  else if mnemonic = "QRD".toList then qrdOperands ops
  else if mnemonic = "QWR".toList then qwrOperands ops
  else none

/-- A line without its comment, which a `;` starts, and without blanks at its ends (R68). -/
def codeOf (line : List Char) : List Char := trimBlanks (line.takeWhile (· != ';'))

/-- The first word of a trimmed line, and the trimmed rest. -/
def firstWord (code : List Char) : List Char × List Char :=
  (code.takeWhile (! isBlank ·), trimBlanks (code.dropWhile (! isBlank ·)))

/-- The operands of a command: separated by commas (R68). -/
def operandTexts (rest : List Char) : List (List Char) :=
  if rest.isEmpty then [] else (splitAt ',' rest).map trimBlanks

/-- The command on a trimmed, nonempty line (R68). -/
def assembleCommand (c : Config) (code : List Char) : Except AsmError Instr :=
  match writtenCommand c (firstWord code).1 (operandTexts (firstWord code).2) with
  | some i => .ok i
  | none => .error (.badCommand code)

/-- The profile `PnEm` of a `.format` line, with the default quire (R68, R6). -/
def formatName : List Char → Option Config
  | 'P' :: rest =>
    match splitAt 'E' rest with
    | [n, es] =>
      (decimal n).bind fun n => (decimal es).bind fun es =>
        if (Config.ofFormat n es).Legal then some (Config.ofFormat n es) else none
    | _ => none
  | _ => none

/-- The profile that the first line states (R68). -/
def assembleFormat (code : List Char) : Except AsmError Config :=
  if (firstWord code).1 = ".format".toList then
    match formatName (firstWord code).2 with
    | some c => .ok c
    | none => .error .badFormatLine
  else .error .badFormatLine

/-- The commands on the given trimmed, nonempty lines, in order (R69). -/
def assembleCommands (c : Config) : List (List Char) → Except AsmError (List Instr)
  | [] => .ok []
  | code :: rest =>
    match assembleCommand c code, assembleCommands c rest with
    | .ok i, .ok is => .ok (i :: is)
    | .error e, _ => .error e
    | _, .error e => .error e

/-- A written program: the profile its first line states, and its commands, one per line (R68). Its encoding is
`encodeProgram` of the commands (R69). -/
def assemble (text : List Char) : Except AsmError (Config × List Instr) :=
  match ((splitAt '\n' text).map codeOf).filter (! List.isEmpty ·) with
  | [] => .error .badFormatLine
  | first :: rest =>
    match assembleFormat first with
    | .error e => .error e
    | .ok c =>
      match assembleCommands c rest with
      | .ok is => .ok (c, is)
      | .error e => .error e

end Sys2Proof.Machine
end

