-- ==== Sys2Proof/Tests/Slice0.lean ====
section
/-! SUPPORT. The model's own tests. Expected results come from spec/95_test_vectors.md (the section is named at each
group), from the opcode map (spec/30_encoding.md R64) and from the parameter ranges of spec/00_scope.md. -/

namespace Sys2Proof.Tests

open Sys2Proof Sys2Proof.Machine

/-- An instance that one host presents one record to. -/
def stateOf (c : Config) (q : Nat) (cmd : Cmd) : State :=
  { cfg := c, q := BitVec.ofNat c.QW q, resp := none, pending := [.command cmd], hosts := 1 }

/-- What one step answers from the quire `q`: the response, and the quire after it. -/
def answer (c : Config) (q : Nat) (cmd : Cmd) : Option (Response × Nat) :=
  match step (stateOf c q cmd) with
  | .next t => t.resp.map fun r => (r, t.q.toNat)
  | .fault _ => none
  | .refused _ => none

/-- The posit result of one step on the empty quire. -/
def result (c : Config) (cmd : Cmd) : Option Nat := (answer c 0 cmd).map fun p => p.1.r.toNat

/-- The quire after one step. -/
def quireAfter (c : Config) (q : Nat) (cmd : Cmd) : Option Nat := (answer c q cmd).map fun p => p.2

/-- The quire word that one step answers. -/
def wordRead (c : Config) (q : Nat) (cmd : Cmd) : Option Nat := (answer c q cmd).map fun p => p.1.x.toNat

/-- The whole response of one step on the empty quire. -/
def response (c : Config) (cmd : Cmd) : Option Response := (answer c 0 cmd).map fun p => p.1

/-! ### Ill-formed terms are refused (R3, R6, R7, R45) -/

theorem test_legal_profiles : Config.p8e0.Legal ∧ Config.p16e1.Legal ∧ Config.p32e2.Legal ∧ (Config.pxe2 3).Legal := by
  decide
theorem test_illegal_n_small : ¬ (Config.ofFormat 2 0).Legal := by decide
theorem test_illegal_n_large : ¬ (Config.ofFormat 33 2).Legal := by decide
theorem test_illegal_es : ¬ (Config.ofFormat 8 3).Legal := by decide
theorem test_illegal_qf : ¬ ({ Config.p8e0 with QF := 11 } : Config).Legal := by decide
theorem test_illegal_qw : ¬ ({ Config.p8e0 with QW := 25 } : Config).Legal ∧
    ({ Config.p8e0 with QW := 26 } : Config).Legal := by decide
theorem test_illegal_lat : ¬ ({ Config.p8e0 with LAT := 0 } : Config).Legal := by decide
theorem test_default_quires : Config.p8e0.QF = 12 ∧ Config.p8e0.QW = 32 ∧ Config.p8e0.quireWords = 1 ∧
    Config.p16e1.QF = 56 ∧ Config.p16e1.QW = 128 ∧ Config.p16e1.quireWords = 2 ∧
    Config.p32e2.QF = 240 ∧ Config.p32e2.QW = 512 ∧ Config.p32e2.quireWords = 8 := by decide
theorem test_illformed_qrd : Instr.wellFormed Config.p32e2 (.qrd 8) = false ∧
    Instr.wellFormed Config.p32e2 (.qrd 7) = true := by decide
theorem test_illformed_qwr : Instr.wellFormed Config.p8e0 (.qwr 1 0) = false ∧
    Instr.wellFormed Config.p8e0 (.qwr 0 0) = true := by decide

/-! ### Words written out from the opcode map (R64) and records of the programs (95_test_vectors.md section 3) -/

theorem test_word_pdec : decodeTableWord 8 0b00000001 = some (.pdec 0) := by decide
theorem test_word_penc : decodeTableWord 8 0b00000010 = some (.penc false 0 0 false) := by decide
theorem test_word_pneg : decodeTableWord 8 0b00000011 = some (.pneg 0) := by decide
theorem test_word_padd : decodeTableWord 8 0b00010000 = some (.padd 0 0) := by decide
theorem test_word_psub : decodeTableWord 8 0b00010001 = some (.psub 0 0) := by decide
theorem test_word_pmul : decodeTableWord 8 0b00010010 = some (.pmul 0 0) := by decide
theorem test_word_pdiv : decodeTableWord 8 0b00010011 = some (.pdiv 0 0) := by decide
theorem test_word_psqrt : decodeTableWord 8 0b00010100 = some (.psqrt 0) := by decide
theorem test_word_prnd : decodeTableWord 8 0b00010101 = some (.prnd 0) := by decide
theorem test_word_pflr : decodeTableWord 8 0b00010110 = some (.pflr 0) := by decide
theorem test_word_pceil : decodeTableWord 8 0b00010111 = some (.pceil 0) := by decide
theorem test_word_qclr : decodeTableWord 8 0b00100000 = some (.qclr) := by decide
theorem test_word_qneg : decodeTableWord 8 0b00100001 = some (.qneg) := by decide
theorem test_word_qmadd : decodeTableWord 8 0b00100010 = some (.qmadd 0 0) := by decide
theorem test_word_qmsub : decodeTableWord 8 0b00100011 = some (.qmsub 0 0) := by decide
theorem test_word_qtop : decodeTableWord 8 0b00100100 = some (.qtop) := by decide
theorem test_word_qrd : decodeTableWord 8 0b00100101 = some (.qrd 0) := by decide
theorem test_word_qwr : decodeTableWord 8 0b00100110 = some (.qwr 0 0) := by decide
theorem test_word_reserved : decodeTableWord 8 0x00 = none ∧ decodeTableWord 8 0x04 = none ∧
    decodeTableWord 8 0x18 = none ∧ decodeTableWord 8 0x27 = none ∧ decodeTableWord 8 0xFF = none := by decide
theorem test_record_pdec : decode ⟨0x01, 0x0000005C, 0, false, 0, 0, false⟩ = .ok (.pdec 0x5C) := by decide
theorem test_record_penc : decode ⟨0x02, 0, 0, false, 0xFFFD, 0, true⟩ = .ok (.penc false (-3) 0 true) := by decide
theorem test_record_padd : decode ⟨0x10, 0x00004000, 0x00005000, false, 0, 0, false⟩ = .ok (.padd 0x4000 0x5000) := by
  decide
theorem test_record_qmadd : decode ⟨0x22, 0x5C4CCCCD, 0x34CCCCCD, false, 0, 0, false⟩
    = .ok (.qmadd 0x5C4CCCCD 0x34CCCCCD) := by decide
theorem test_record_qrd : decode ⟨0x25, 0, 0, false, 0x0004, 0, false⟩ = .ok (.qrd 4) := by decide
theorem test_record_qwr : decode ⟨0x26, 0, 0, false, 0, 0x000000007F000000, false⟩ = .ok (.qwr 0 0x7F000000) := by
  decide
theorem test_record_unused_fields : decode ⟨0x24, 7, 8, true, 9, 10, true⟩ = .ok .qtop := by decide
/-- PADD 0x4000, 0x5000 with every bit of its record in the model's numbering. -/
theorem test_record_word : decodeTableWord Cmd.bits 0x0050_0000_0040_0010 = some (.padd 0x4000 0x5000) := by decide

/-! ### The step runs the presented command as the first after reset -/

theorem test_fetch_qrd : step (State.reset.withFetchWord 8 0x25) = exec (.qrd 0) State.reset := by rfl
theorem test_fetch_pmul : step (State.reset.withFetchWord 8 0x12) = exec (.pmul 0 0) State.reset := by rfl

/-! ### PDEC (95_test_vectors.md section 2.1) -/

theorem test_pdec_exponent_cut : response Config.p32e2 (encode (.pdec 0x7FFFFFFD))
    = some { Response.empty with k := 28, m := 29, e := 2, scale := 114, tail := 0x40000000 } := by decide +kernel
theorem test_pdec_negative : response Config.p8e0 (encode (.pdec 0xEB))
    = some { Response.empty with
      sign := true, k := -2, m := 2, nf := 4, scale := -2, x := 0x5000000000000000, tail := 0x28 } := by decide +kernel

/-! ### PENC (section 2.2) -/

theorem test_penc_exponent_tie_up : result Config.p16e1 (encode (.penc false 27 0x1999999999999999 false)) = some 0x7FFF := by decide +kernel
theorem test_penc_odd_tie : result Config.p8e0 (encode (.penc false 0 0x0C00000000000000 false)) = some 0x42 := by decide +kernel

/-! ### PNEG (section 2.3) -/

theorem test_pneg_minpos : result Config.p8e0 (encode (.pneg 0x01)) = some 0xFF := by decide +kernel
theorem test_pneg_nar : result Config.p8e0 (encode (.pneg 0x80)) = some 0x80 := by decide +kernel

/-! ### PADD, PSUB (section 2.4) -/

theorem test_padd_tie_even : result Config.p8e0 (encode (.padd 0x40 0x01)) = some 0x40 := by decide +kernel
theorem test_padd_rounds : result Config.p32e2 (encode (.padd 0x5C4CCCCD 0x34CCCCCD)) = some 0x5CB33333 := by decide +kernel
theorem test_psub_order : result Config.p8e0 (encode (.psub 0x01 0x02)) = some 0xFF := by decide +kernel
theorem test_psub_exact : result Config.p32e2 (encode (.psub 0x40000000 0x3FFFFFFF)) = some 0x00800000 := by decide +kernel

/-! ### PMUL, PDIV (section 2.5) -/

theorem test_pmul_zero_nar : result Config.p8e0 (encode (.pmul 0x00 0x80)) = some 0x80 := by decide +kernel
theorem test_pmul_rounds : result Config.p32e2 (encode (.pmul 0x5C4CCCCD 0x34CCCCCD)) = some 0x51D70A3E := by decide +kernel
theorem test_pdiv_third : result Config.p32e2 (encode (.pdiv 0x40000000 0x4C000000)) = some 0x32AAAAAB := by decide +kernel
theorem test_pdiv_zero_zero : result Config.p8e0 (encode (.pdiv 0x00 0x00)) = some 0x80 := by decide +kernel

/-! ### PSQRT (section 2.6) -/

theorem test_psqrt_two : result Config.p32e2 (encode (.psqrt 0x48000000)) = some 0x43504F33 := by decide +kernel
theorem test_psqrt_negative : result Config.p8e0 (encode (.psqrt 0xFF)) = some 0x80 := by decide +kernel

/-! ### PRND, PFLR, PCEIL (section 2.7) -/

theorem test_prnd_tie : result Config.p32e2 (encode (.prnd 0x7E000002)) = some 0x7E000000 := by decide +kernel
theorem test_prnd_negative_half : result Config.p8e0 (encode (.prnd 0xE0)) = some 0x00 := by decide +kernel
theorem test_pflr_negative : result Config.p16e1 (encode (.pflr 0x86DC)) = some 0x86D8 := by decide +kernel
theorem test_pflr_minus_minpos : result Config.p8e0 (encode (.pflr 0xFF)) = some 0xC0 := by decide +kernel
theorem test_pceil_minpos : result Config.p8e0 (encode (.pceil 0x01)) = some 0x40 := by decide +kernel
theorem test_pceil_negative : result Config.p16e1 (encode (.pceil 0xAA00)) = some 0xB000 := by decide +kernel

/-! ### The quire (sections 2.8 and 3) -/

theorem test_qclr_nar : quireAfter Config.p8e0 0x80000000 (encode (.qclr)) = some 0 := by decide +kernel
theorem test_qneg : quireAfter Config.p8e0 0x00001000 (encode (.qneg)) = some 0xFFFFF000 := by decide +kernel
theorem test_qneg_words : quireAfter Config.p16e1 0x0000FFFFFFFFFFFF_FFFFFFFFFFFFFFFF (encode (.qneg)) = some 0xFFFF000000000000_0000000000000001 := by decide +kernel
theorem test_qmadd_wraps_to_nar : quireAfter Config.p8e0 0x7F000000 (encode (.qmadd 0x7F 0x7F)) = some 0x80000000 := by decide +kernel
theorem test_qmadd_minpos : quireAfter Config.p8e0 0x00001040 (encode (.qmadd 0x01 0x01)) = some 0x00001041 := by decide +kernel
theorem test_qmsub_units : quireAfter Config.p16e1 0x0001000000000000_0000000000000000 (encode (.qmsub 0x0001 0x0001)) = some 0x0000FFFFFFFFFFFF_FFFFFFFFFFFFFFFF := by decide +kernel
theorem test_qmsub_zero_nar : quireAfter Config.p8e0 0x00001000 (encode (.qmsub 0x00 0x80)) = some 0x80000000 := by decide +kernel
theorem test_qtop_above_tie : (answer Config.p8e0 0x00001041 (encode .qtop)).map (fun p => p.1.r.toNat) = some 0x41 := by
  decide +kernel
/-- The source's quire fixture (section 1.2): the quire after program P3's command 3 rounds to -48. -/
theorem test_qtop_fixture : (answer Config.p32e2
    0xFFFFFFFFFFFFFFFFFFFFFFFFFFFFFFFFFFFFFFFFFFFFFFFFFFFFFFFFFFFFFFFFFFD0000000FF3333480000000000000000000000000000000000000000000000
    (encode .qtop)).map (fun p => p.1.r.toNat) = some 0x9A000000 := by decide +kernel
theorem test_qrd_sign : wordRead Config.p8e0 0x9ABCDEF0 (encode (.qrd 0)) = some 0xFFFFFFFF9ABCDEF0 := by decide +kernel
theorem test_qrd_low_word : wordRead Config.p16e1 0x0000FFFFFFFFFFFF_FFFFFFFFFFFFFFFE (encode (.qrd 1))
    = some 0xFFFFFFFFFFFFFFFE := by decide +kernel
theorem test_qwr_drops : quireAfter Config.p8e0 0 (encode (.qwr 0 0x123456789ABCDEF0)) = some 0x9ABCDEF0 := by decide +kernel
theorem test_qwr_low_word : quireAfter Config.p16e1 0x0000FFFFFFFFFFFF_0000000000000000 (encode (.qwr 1 0xFFFFFFFFFFFFFFFF)) = some 0x0000FFFFFFFFFFFF_FFFFFFFFFFFFFFFF := by decide +kernel

/-! ### The written form (R68; the first lines of program P4, section 3.4) -/

theorem test_assemble : assemble (".format P8E0\nQWR 0, 0x000000007F000000    ; Q = 0x7F000000\n\nQTOP\nQMADD 0x7F, 0x7F\n".toList)
    = .ok (Config.p8e0, [.qwr 0 0x7F000000, .qtop, .qmadd 0x7F 0x7F]) := by decide +kernel
theorem test_assemble_penc : assemble (".format P16E1\nPENC 1, -3, 0x8000_0000_0000_0000, 0\n".toList)
    = .ok (Config.p16e1, [.penc true (-3) 0x8000000000000000 false]) := by decide +kernel
theorem test_assemble_digits : assemble (".format P32E2\nPNEG 0x40\n".toList)
    = .error (.badCommand "PNEG 0x40".toList) := by decide +kernel

/-! ### Witnesses: the hypotheses of each obligation, met together on the instance P8E0 -/

/-- An instance of P8E0 with the quire `q` and what its host presents. -/
def small (q : Nat) (p : List HostEvent) : State :=
  { cfg := Config.p8e0, q := BitVec.ofNat 32 q, resp := none, pending := p, hosts := 1 }

/-- Why a step was refused, if it was. -/
def refusalOf : Host.Outcome State Fault Refusal → Option Refusal
  | .refused r => some r
  | .next _ => none
  | .fault _ => none

/-- The value of a posit of P8E0, from the machine's exact value. -/
theorem value_p8e0 {p : BitVec 8} {n e : Int} (h : value Config.p8e0 p = some { num := n, exp := e }) :
    Reals.value Config.p8e0 p = some ((n : ℝ) * (2 : ℝ) ^ e) := by
  rw [← value_map_ofDyad Config.p8e0 p, h]; rfl

theorem value_zero : Reals.value Config.p8e0 (0x00 : BitVec 8) = some 0 := by
  rw [value_p8e0 (n := 0) (e := 0) (by decide +kernel)]; norm_num
theorem value_one : Reals.value Config.p8e0 (0x40 : BitVec 8) = some 1 := by
  rw [value_p8e0 (n := 32) (e := -5) (by decide +kernel)]; norm_num
theorem value_minus_one : Reals.value Config.p8e0 (0xC0 : BitVec 8) = some (-1) := by
  rw [value_p8e0 (n := -32) (e := -5) (by decide +kernel)]; norm_num
theorem value_two : Reals.value Config.p8e0 (0x60 : BitVec 8) = some 2 := by
  rw [value_p8e0 (n := 16) (e := -3) (by decide +kernel)]; norm_num
theorem value_half_and_two : Reals.value Config.p8e0 (0x64 : BitVec 8) = some (5 / 2) := by
  rw [value_p8e0 (n := 20) (e := -3) (by decide +kernel)]; norm_num
theorem value_maxpos : Reals.value Config.p8e0 (positMaxPos Config.p8e0) = some 64 :=
  (value_p8e0 (p := positMaxPos Config.p8e0) (n := 1) (e := 6) (by decide +kernel)).trans (by norm_num)
theorem value_minpos : Reals.value Config.p8e0 (positMinPos Config.p8e0) = some (1 / 64) :=
  (value_p8e0 (p := positMinPos Config.p8e0) (n := 1) (e := -6) (by decide +kernel)).trans (by norm_num)

theorem witness_UnusedFieldsAreIgnored :
    let x : Cmd := ⟨0x25, 1, 2, true, 3, 4, true⟩
    let y : Cmd := ⟨0x25, 5, 6, false, 3, 7, false⟩
    x ≠ y ∧ x.op = y.op ∧ x.op ∈ ([0x02, 0x25, 0x26] : List Opcode) ∧ x.c = y.c ∧
    x.op ∉ ([0x01, 0x03, 0x10, 0x11, 0x12, 0x13, 0x14, 0x15, 0x16, 0x17, 0x22, 0x23] : List Opcode) ∧
    x.op ≠ 0x02 ∧ x.op ∉ ([0x02, 0x26] : List Opcode) := by decide
theorem witness_BusBitsAboveThePositAreIgnored :
    (∀ j, j < 8 → (0x0000005C : Bus).getLsbD j = (0xFFFFFF5C : Bus).getLsbD j) ∧
    (0x0000005C : Bus) ≠ 0xFFFFFF5C ∧ (small 0 []).cfg.N = 8 := by decide
/-- The ends of each reserved range, the assigned opcodes beside them, and the last legal and the first illegal
index. -/
theorem witness_ReservedOpcodesAreRefused :
    (small 0 [.command (Cmd.ofOp 0x00)]).instanceLegal ∧
    ([0x00, 0x04, 0x0F, 0x18, 0x1F, 0x27, 0xFF] : List Opcode).all (fun op =>
      refusalOf (step (small 0 [.command (Cmd.ofOp op)])) == some (.reservedOpcode op)) = true ∧
    ([0x01, 0x03, 0x10, 0x17, 0x20, 0x26] : List Opcode).all (fun op =>
      (answer Config.p8e0 0 (Cmd.ofOp op)).isSome) = true ∧
    decode (encode (.qrd 1)) = .ok (.qrd 1) ∧ (small 0 []).cfg.quireWords ≤ (encode (.qrd 1)).c.toNat := by
  decide +kernel
theorem witness_StepRunsThePresentedCommand :
    (small 0 [.command (encode .qneg), .reset]).instanceLegal ∧
    (small 0 [.command (encode .qneg), .reset]).pending = .command (encode .qneg) :: [.reset] ∧
    decode (encode .qneg) = .ok .qneg := by decide
theorem witness_ResetClearsTheQuire : (small 7 [.reset]).instanceLegal ∧ (small 7 [.reset]).pending = .reset :: [] ∧
    (small 7 [.reset]).q ≠ 0 := by decide
theorem witness_ResetAbandonsTheCommandInProgress :
    (small 7 [.resetDuring (encode .qneg)]).instanceLegal ∧ cmdAllowed Config.p8e0 (encode .qneg) = true ∧
    (small 7 [.resetDuring (encode .qneg)]).pending = .resetDuring (encode .qneg) :: [] := by decide
theorem witness_UnspecifiedInstancesAreRefused :
    ¬ ({ small 0 [] with cfg := { Config.p8e0 with LAT := 0 }, q := 0 } : State).cfg.Legal ∧
    ({ small 0 [] with hosts := 2 } : State).cfg.Legal ∧ 1 < ({ small 0 [] with hosts := 2 } : State).hosts := by
  decide
theorem witness_IdleStepKeepsTheState : (small 7 []).instanceLegal ∧ (small 7 []).pending = [] := by decide
theorem witness_CommandsCompleteExactlyWhenWellFormed :
    Instr.wellFormed (small 0 []).cfg (.qrd 0) = true ∧ Instr.wellFormed (small 0 []).cfg (.qrd 1) = false ∧
    Instr.wellFormed (small 0 []).cfg (.qwr 1 7) = false := by decide
/-- Also for CommandsDependOnTheQuireAlone and RepeatedReadsAndWritesChangeNothing. -/
theorem witness_CommandsChangeOnlyTheirOwnState :
    exec .qclr (small 7 []) = .next (withQuire (small 7 []) 0) ∧ (small 7 []).cfg.Legal := ⟨rfl, by decide⟩
/-- Also for StepsKeepTheConfiguration and StepsKeepTheInvariant. -/
theorem witness_NoStepDependsOnTheLatency :
    step (small 7 [.command (encode .qclr)]) = .next (withQuire (small 7 []) 0) ∧
    (small 7 [.command (encode .qclr)]).Inv ∧ 1 ≤ 5 := ⟨rfl, by simp only [State.Inv]; decide, by decide⟩
theorem witness_WellDrivenRunsAreNeverRefused :
    (small 7 [.command (encode (.qrd 0)), .reset, .resetDuring (encode .qclr)]).wellDriven := by decide
/-- Also for PdecFieldsDenoteTheValue and PencOfPdecReturnsThePattern. -/
theorem witness_PdecReportsTheFields :
    (small 0 []).cfg.Legal ∧ (0x100 : Bus).setWidth (small 0 []).cfg.N = positZero (small 0 []).cfg ∧
    (0x80 : Bus).setWidth (small 0 []).cfg.N = positNaR (small 0 []).cfg ∧
    ([0x7F, 0x01, 0x81, 0xFF] : List Bus).all (fun a => a.setWidth (small 0 []).cfg.N != positZero (small 0 []).cfg &&
      a.setWidth (small 0 []).cfg.N != positNaR (small 0 []).cfg) = true := by decide
theorem witness_PatternsAreOrderedLikeTheirValues :
    Config.p8e0.Legal ∧ Reals.value Config.p8e0 (0xC0 : BitVec 8) = some (-1) ∧
    Reals.value Config.p8e0 (0x40 : BitVec 8) = some 1 ∧ (-1 : ℝ) < 1 ∧ (0xC0 : BitVec Config.p8e0.N) ≠ positNaR Config.p8e0 :=
  ⟨by decide, value_minus_one, value_one, by norm_num, by decide⟩
/-- Also for MachineRoundsLikeTheReals and PatternConstantsHaveTheirValues. -/
theorem witness_PositRoundHasItsProperties :
    Config.p8e0.Legal ∧ Reals.value Config.p8e0 (0x60 : BitVec 8) = some 2 ∧
    Reals.value Config.p8e0 (positMaxPos Config.p8e0) = some 64 ∧ (64 : ℝ) ≤ 64 ∧
    Reals.value Config.p8e0 (positMinPos Config.p8e0) = some (1 / 64) ∧ (0 : ℝ) < 1 / 65 ∧ (1 / 65 : ℝ) < 1 / 64 :=
  ⟨by decide, value_two, value_maxpos, le_rfl, value_minpos, by norm_num, by norm_num⟩
/-- Scale 0 and fraction 0 denote 1; with sticky 1, every real between 1 and `1 + 2^-64`. Also for
PencNeverGivesZeroOrNaR. -/
theorem witness_PencRoundsTheRealItsOperandsDenote :
    (small 0 []).cfg.Legal ∧ (1 : ℝ) = (2 : ℝ) ^ (0 : Half).toInt * (1 + ((0 : QuireWord).toNat : ℝ) / 2 ^ 64) ∧
    (1 : ℝ) < 1 + (2 : ℝ) ^ (-65 : ℤ) ∧ 1 + (2 : ℝ) ^ (-65 : ℤ) < 1 + (2 : ℝ) ^ ((0 : Half).toInt - 64) :=
  ⟨by decide, by simp, by norm_num, by
    rw [show (0 : Half).toInt = 0 from rfl]; norm_num⟩
/-- The first scale above the range and the first below it, and the ends of the range. -/
theorem witness_PencSaturatesOutsideTheScaleRange :
    (small 0 []).cfg.Legal ∧ (2 : Int) ^ (small 0 []).cfg.ES * (((small 0 []).cfg.N : Int) - 2) ≤ (6 : Half).toInt ∧
    (-7 : Half).toInt < -((2 : Int) ^ (small 0 []).cfg.ES * (((small 0 []).cfg.N : Int) - 2)) ∧
    result Config.p8e0 (encode (.penc false 6 0 false)) = some 0x7F ∧
    result Config.p8e0 (encode (.penc true (-7) 0 true)) = some 0xFF ∧
    result Config.p8e0 (encode (.penc false 5 0 false)) = some 0x7E := by decide +kernel
/-- Also for PsubRoundsTheExactDifference, PmulRoundsTheExactProduct, PdivRoundsTheExactQuotient (the divisor is not
0), ProductsAreExactInTheQuire, PnegNegatesPatternAndValue and the NaR clauses of all of them. -/
theorem witness_PaddRoundsTheExactSum :
    (small 0 []).cfg.Legal ∧ Reals.value Config.p8e0 ((0x40 : Bus).setWidth Config.p8e0.N) = some 1 ∧
    Reals.value Config.p8e0 ((0x60 : Bus).setWidth Config.p8e0.N) = some 2 ∧ (2 : ℝ) ≠ 0 ∧
    (0x80 : Bus).setWidth Config.p8e0.N = positNaR Config.p8e0 ∧ (0x00 : Bus).setWidth Config.p8e0.N = positZero Config.p8e0 :=
  ⟨by decide, value_one, value_two, two_ne_zero, by decide, by decide⟩
/-- The value 0 meets the first clause, -1 the second. -/
theorem witness_PsqrtRoundsTheExactRoot :
    (small 0 []).cfg.Legal ∧ Reals.value Config.p8e0 ((0x00 : Bus).setWidth Config.p8e0.N) = some 0 ∧ (0 : ℝ) ≤ 0 ∧
    Reals.value Config.p8e0 ((0xC0 : Bus).setWidth Config.p8e0.N) = some (-1) ∧ (-1 : ℝ) < 0 :=
  ⟨by decide, value_zero, le_rfl, value_minus_one, by norm_num⟩
/-- 5/2 is a tie: its nearest even integer is 2. -/
theorem witness_PrndGivesTheNearestInteger :
    (small 0 []).cfg.Legal ∧ Reals.value Config.p8e0 ((0x64 : Bus).setWidth Config.p8e0.N) = some (5 / 2) ∧
    |(5 / 2 : ℝ) - (2 : ℤ)| = 1 / 2 ∧ result Config.p8e0 (encode (.prnd 0x64)) = some 0x60 :=
  ⟨by decide, value_half_and_two, by norm_num, by decide +kernel⟩
theorem witness_PflrAndPceilGiveFloorAndCeiling :
    (small 0 []).cfg.Legal ∧ Reals.value Config.p8e0 ((0x64 : Bus).setWidth Config.p8e0.N) = some (5 / 2) ∧
    (0x80 : Bus).setWidth Config.p8e0.N = positNaR Config.p8e0 := ⟨by decide, value_half_and_two, by decide⟩
theorem witness_EveryNaRConditionGivesNaR :
    (small 0x80000000 []).cfg.Legal ∧ (0x80 : Bus).setWidth Config.p8e0.N = positNaR Config.p8e0 ∧
    (0x00 : Bus).setWidth Config.p8e0.N = positZero Config.p8e0 ∧ ((0xFF : Bus).setWidth Config.p8e0.N).toInt < 0 ∧
    (small 0x80000000 []).q = quireNaR (small 0x80000000 []).cfg := by decide +kernel
theorem witness_ArithmeticLawsHold :
    (small 0 []).cfg.Legal ∧ (0xC0 : Bus).setWidth Config.p8e0.N = -((0x40 : Bus).setWidth Config.p8e0.N) ∧
    (0xA0 : Bus).setWidth Config.p8e0.N = -((0x60 : Bus).setWidth Config.p8e0.N) ∧ (0x00 : Bus).setWidth Config.p8e0.N = positZero Config.p8e0 ∧
    (0x40 : Bus).setWidth Config.p8e0.N = positOne Config.p8e0 ∧ ((0x81 : Bus).setWidth Config.p8e0.N).toInt < 0 ∧
    (0x40 : Bus).setWidth Config.p8e0.N ≠ positNaR Config.p8e0 := by decide
theorem witness_QclrAndQnegCompute :
    (small 0 []).cfg.Legal ∧ (small 0 []).q = 0 ∧ (small 0x80000000 []).q = quireNaR (small 0x80000000 []).cfg := by decide +kernel
/-- A quire that holds the largest value beside QNaR's pattern; also for QuireNaRAbsorbs' clauses with QNaR. -/
theorem witness_QmaddAndQmsubAccumulateExactly :
    (small 0x7FFFFFFF []).cfg.Legal ∧ (small 0x7FFFFFFF []).q ≠ quireNaR (small 0x7FFFFFFF []).cfg ∧
    Reals.value Config.p8e0 ((0x40 : Bus).setWidth Config.p8e0.N) = some 1 ∧
    Reals.value Config.p8e0 ((0x00 : Bus).setWidth Config.p8e0.N) = some 0 ∧
    (0x00 : Bus).setWidth Config.p8e0.N = positZero Config.p8e0 ∧ (0x80 : Bus).setWidth Config.p8e0.N = positNaR Config.p8e0 :=
  ⟨by decide, by decide +kernel, value_one, value_zero, by decide, by decide⟩
theorem witness_QuireNaRAbsorbs :
    (small 0x80000000 []).cfg.Legal ∧ (small 0x80000000 []).q = quireNaR (small 0x80000000 []).cfg ∧
    exec .qclr (small 0x80000000 []) = .next (withQuire (small 0x80000000 []) 0) := by
  refine ⟨by decide, by decide +kernel, rfl⟩
/-- The quires next to QNaR, the greatest and the least; also for QtopRoundsTheExactQuireOnce. -/
theorem witness_QtopIsMonotone :
    (small 0x80000001 []).cfg.Legal ∧ (small 0x80000001 []).q ≠ quireNaR (small 0x80000001 []).cfg ∧
    (0x7FFFFFFF : BitVec Config.p8e0.QW) ≠ quireNaR Config.p8e0 ∧
    (small 0x80000001 []).q.toInt ≤ (0x7FFFFFFF : BitVec 32).toInt := by
  decide +kernel
/-- The last legal and the first illegal index; also for QwrWritesTheWordView. -/
theorem witness_QrdReadsTheWordView :
    (small 0 []).cfg.Legal ∧ (0 : Half).toNat < (small 0 []).cfg.quireWords ∧
    (small 0 []).cfg.quireWords ≤ (1 : Half).toNat ∧ (7 : Half).toNat < Config.p32e2.quireWords ∧
    Config.p32e2.quireWords ≤ (8 : Half).toNat := by decide
/-- The two-word quire of P16E1 with another value in each word: index 0 is the most significant word (R42). -/
theorem witness_SavedQuireIsRestoredBitForBit :
    let s := { stateOf Config.p16e1 0x0001000000000003_8000000000000002 (encode .qclr) with pending := [] }
    let w : Nat → QuireWord := fun n => if n = 0 then 0x0001000000000003 else 0x8000000000000002
    s.instanceLegal ∧ s.cfg.quireWords = 2 ∧ s.cfg.quireWords ≤ 65536 ∧
    ∀ n, n < s.cfg.quireWords → exec (.qrd (BitVec.ofNat 16 n)) s = .next (withWord s (w n)) := by
  refine ⟨by decide, by decide, by decide, fun n hn => ?_⟩
  have hn : n < 2 := hn
  interval_cases n <;> rfl
/-- One pair, `1 * 2`: every partial sum is 0 or 2, and `2 * 2^12 < 2^31`. -/
theorem witness_DotProductIsRoundedOnce :
    let s := small 7 [.command (encode .qclr), .command (encode (.qmadd 0x40 0x60)), .command (encode .qtop)]
    s.instanceLegal ∧
    s.pending = HostEvent.command (encode .qclr)
      :: (([(0x40, 0x60)] : List (Bus × Bus)).map (fun ab => HostEvent.command (encode (.qmadd ab.1 ab.2)))
        ++ [HostEvent.command (encode .qtop)]) ∧
    (∀ ab ∈ ([(0x40, 0x60)] : List (Bus × Bus)), ab.1.setWidth s.cfg.N ≠ positNaR s.cfg ∧
      ab.2.setWidth s.cfg.N ≠ positNaR s.cfg) ∧
    ∀ n, |exactDot s.cfg (([(0x40, 0x60)] : List (Bus × Bus)).take n)| * 2 ^ s.cfg.QF < 2 ^ (s.cfg.QW - 1) := by
  have h1 : busValue Config.p8e0 0x40 = 1 := by
    rw [busValue, show (0x40 : Bus).setWidth Config.p8e0.N = (0x40 : BitVec 8) from rfl, value_one]; rfl
  have h2 : busValue Config.p8e0 0x60 = 2 := by
    rw [busValue, show (0x60 : Bus).setWidth Config.p8e0.N = (0x60 : BitVec 8) from rfl, value_two]; rfl
  refine ⟨by decide, rfl, fun ab h => ?_, fun n => ?_⟩
  · rw [List.mem_singleton] at h; subst h; decide
  show _ * (2 : ℝ) ^ 12 < 2 ^ 31
  rcases n with _ | n
  · simp [exactDot]
  · have : exactDot (small 7 []).cfg (([(0x40, 0x60)] : List (Bus × Bus)).take (n + 1)) = 2 := by
      have : ([(0x40, 0x60)] : List (Bus × Bus)).take (n + 1) = [(0x40, 0x60)] := by simp
      rw [this, exactDot, List.map_singleton, List.sum_singleton]
      show busValue Config.p8e0 0x40 * busValue Config.p8e0 0x60 = 2
      rw [h1, h2]; norm_num
    change exactDot (small 7 []).cfg _ = _ at this
    simp only [small] at this ⊢
    rw [this]; norm_num
theorem witness_PresentedProgramsRunInOrder : (small 7 []).instanceLegal ∧ (small 7 []).pending = [] := by decide

end Sys2Proof.Tests
end

section
/-! PROOFS. The order of patterns and the values of the pattern constants (spec/10_state.md R23, R25). The magnitude
pattern is the least pattern of its regime plus its tail, and the magnitude of the value lies in the regime's range of
values `useed^k` to `useed^(k+1)`; so the regime, then the tail, order both alike. -/

namespace Sys2Proof.Machine

open Sys2Proof

/-! ### The pattern constants as unsigned values (R23) -/

/-- The number of patterns is twice the weight of the sign bit. -/
theorem two_pow_width {c : Config} (hN : 3 ≤ c.N) : 2 ^ c.N = 2 * 2 ^ (c.N - 1) :=
  (mul_pow_sub_one (by omega) 2).symm

/-- The weight of the sign bit is twice that of the first regime bit. -/
theorem two_pow_pred_width {c : Config} (hN : 3 ≤ c.N) : 2 ^ (c.N - 1) = 2 * 2 ^ (c.N - 2) :=
  (mul_pow_sub_one (show c.N - 1 ≠ 0 by omega) 2).symm

/-- NaR is the least signed integer of N bits. -/
theorem positNaR_eq_intMin (c : Config) : positNaR c = BitVec.intMin c.N :=
  BitVec.eq_of_toNat_eq (by rw [positNaR, BitVec.toNat_ofNat, BitVec.toNat_intMin])

theorem positOne_toNat {c : Config} (hN : 3 ≤ c.N) : (positOne c).toNat = 2 ^ (c.N - 2) := by
  rw [positOne, BitVec.toNat_ofNat, Nat.mod_eq_of_lt (Nat.pow_lt_pow_right one_lt_two (by omega))]

theorem positMaxPos_toNat {c : Config} (hN : 3 ≤ c.N) : (positMaxPos c).toNat = 2 ^ (c.N - 1) - 1 := by
  have := two_pow_width hN
  have : 0 < 2 ^ (c.N - 1) := by positivity
  rw [positMaxPos, BitVec.toNat_ofNat, Nat.mod_eq_of_lt (by omega)]

theorem positMinPos_toNat {c : Config} (hN : 3 ≤ c.N) : (positMinPos c).toNat = 1 := by
  rw [positMinPos, BitVec.toNat_ofNat, Nat.mod_eq_of_lt (Nat.one_lt_two_pow (by omega))]

/-! ### The regimes split the magnitude patterns into intervals -/

/-- The least magnitude pattern whose regime value is `k`: the regime string `R(k)` of R100 followed by zeros. -/
def regimeFloor (c : Config) (k : Int) : Nat :=
  if 0 ≤ k then 2 ^ (c.N - 1) - 2 ^ (c.N - 2 - k.toNat) else 2 ^ (c.N - 2 - (-k).toNat)

theorem regimeFloor_of_nonneg (c : Config) {k : Int} (hk : 0 ≤ k) :
    regimeFloor c k = 2 ^ (c.N - 1) - 2 ^ (c.N - 2 - k.toNat) := if_pos hk

theorem regimeFloor_of_neg (c : Config) {k : Int} (hk : k < 0) :
    regimeFloor c k = 2 ^ (c.N - 2 - (-k).toNat) := if_neg (not_le.2 hk)

theorem regimeFloor_pos {c : Config} (hN : 3 ≤ c.N) (k : Int) : 0 < regimeFloor c k := by
  have h2 := two_pow_pred_width hN
  have h3 : 2 ^ (c.N - 2 - k.toNat) ≤ 2 ^ (c.N - 2) := Nat.pow_le_pow_right two_pos (by omega)
  have h4 : 0 < 2 ^ (c.N - 2) := by positivity
  rw [regimeFloor]
  split_ifs
  · omega
  · positivity

theorem regimeFloor_lt {c : Config} (hN : 3 ≤ c.N) (k : Int) : regimeFloor c k < 2 ^ (c.N - 1) := by
  rw [regimeFloor]
  split_ifs
  · exact Nat.sub_lt (by positivity) (by positivity)
  · exact Nat.pow_lt_pow_right one_lt_two (by omega)

/-- The intervals of two regimes that follow each other meet: one has `2^rem` patterns. -/
theorem regimeFloor_succ {c : Config} (hN : 3 ≤ c.N) {k : Int} (hlo : -(c.N - 2 : Nat) ≤ k)
    (hhi : k < (c.N - 2 : Nat)) :
    regimeFloor c k + 2 ^ (c.N - 2 - regimeLength k) = regimeFloor c (k + 1) := by
  have hmid := two_pow_pred_width hN
  rcases lt_trichotomy k (-1) with hk | rfl | hk
  · rw [regimeFloor_of_neg c (by omega), regimeFloor_of_neg c (by omega), regimeLength, if_neg (by omega), ← two_mul,
      ← pow_succ']
    congr 1; omega
  · have hquarter : 2 ^ (c.N - 2) = 2 * 2 ^ (c.N - 3) := by rw [← pow_succ']; congr 1; omega
    have hlen : regimeLength (-1) = 1 := rfl
    rw [regimeFloor_of_neg c (by omega), regimeFloor_of_nonneg c (by omega), hlen]
    simp only [neg_neg, Int.toNat_one, neg_add_cancel, Int.toNat_zero, Nat.sub_zero, Nat.sub_sub, Nat.reduceAdd]
    omega
  · obtain ⟨n, rfl⟩ := Int.eq_ofNat_of_zero_le (show 0 ≤ k by omega)
    have hdouble : 2 ^ (c.N - 2 - n) = 2 * 2 ^ (c.N - 2 - (n + 1)) := by rw [← pow_succ']; congr 1; omega
    have hle : 2 ^ (c.N - 2 - n) ≤ 2 ^ (c.N - 2) := Nat.pow_le_pow_right two_pos (by omega)
    rw [regimeFloor_of_nonneg c (by omega), regimeFloor_of_nonneg c (by omega), regimeLength, if_pos (by omega)]
    simp only [Int.toNat_natCast, Int.toNat_natCast_add_one]
    omega

/-- The least patterns rise with the regime value. -/
theorem regimeFloor_mono {c : Config} (hN : 3 ≤ c.N) {j k : Int} (hlo : -(c.N - 2 : Nat) ≤ j) (hjk : j ≤ k)
    (hhi : k ≤ (c.N - 2 : Nat)) : regimeFloor c j ≤ regimeFloor c k := by
  induction k, hjk using Int.leInduction with
  | base => exact le_rfl
  | succ k hjk ih =>
    rw [← regimeFloor_succ hN (hlo.trans hjk) (by omega)]
    exact (ih (by omega)).trans (Nat.le_add_right _ _)

/-! ### The magnitude pattern in its regime's interval -/

@[simp] theorem magnitude_positZero (c : Config) : magnitude c (positZero c) = 0 := by simp [magnitude, positZero]

/-- The magnitude pattern is the least one of its regime plus its tail (R81 to R83). -/
theorem magnitude_eq_regimeFloor_add_tailBits (c : Config) (p : BitVec c.N) (hN : 3 ≤ c.N) (h0 : p ≠ positZero c)
    (h1 : p ≠ positNaR c) : (magnitude c p).toNat = regimeFloor c (regimeValue c p) + tailBits c p := by
  have hrun := regimeRun_le c p
  have hpos := regimeRun_pos c p hN
  have hrem := tailLength_eq c p hN
  have hlen := regimeLength_regimeValue c p hN
  suffices h : (magnitude c p).toNat / 2 ^ tailLength c p * 2 ^ tailLength c p = regimeFloor c (regimeValue c p) by
    rw [← h, tailBits, Nat.div_add_mod']
  by_cases hfull : regimeRun c p = c.N - 1
  · have hk : regimeValue c p = (c.N - 2 : Nat) := by
      rw [regimeValue, if_pos (regimeBit_of_full_run c p hN h0 h1 hfull)]; omega
    rw [magnitude_of_full_run c p hN h0 h1 hfull, hk, regimeFloor_of_nonneg c (by omega), hrem, hfull,
      positMaxPos_toNat hN]
    simp [show c.N - 2 - (c.N - 1) = 0 by omega]
  · rw [magnitude_div c p hN h0 h1 (by omega), regimeString, hlen, hrem]
    by_cases hk : 0 ≤ regimeValue c p
    · rw [if_pos hk, regimeFloor_of_nonneg c hk, Nat.sub_mul, ← pow_add, ← pow_succ']
      rw [regimeLength, if_pos hk] at hlen
      congr 2 <;> omega
    · rw [if_neg hk, regimeFloor_of_neg c (not_le.1 hk), one_mul]
      rw [regimeLength, if_neg hk] at hlen
      rw [hlen]

/-- A pattern of a lower regime has a lower magnitude pattern. -/
theorem magnitude_lt_regimeFloor (c : Config) (p : BitVec c.N) (hN : 3 ≤ c.N) (h0 : p ≠ positZero c)
    (h1 : p ≠ positNaR c) {k : Int} (hk : regimeValue c p < k) (hhi : k ≤ (c.N - 2 : Nat)) :
    (magnitude c p).toNat < regimeFloor c k := by
  have hrange := regimeValue_range c p hN h0 h1
  have htail := tailBits_lt c p
  rw [tailLength_eq c p hN, ← regimeLength_regimeValue c p hN] at htail
  calc (magnitude c p).toNat
      = regimeFloor c (regimeValue c p) + tailBits c p := magnitude_eq_regimeFloor_add_tailBits c p hN h0 h1
    _ < regimeFloor c (regimeValue c p) + 2 ^ (c.N - 2 - regimeLength (regimeValue c p)) := Nat.add_lt_add_left htail _
    _ = regimeFloor c (regimeValue c p + 1) := regimeFloor_succ hN (by omega) (by omega)
    _ ≤ regimeFloor c k := regimeFloor_mono hN (by omega) hk hhi

/-- The magnitude patterns are ordered by the regime first. -/
theorem magnitude_lt_of_regimeValue_lt (c : Config) (p q : BitVec c.N) (hN : 3 ≤ c.N) (hp0 : p ≠ positZero c)
    (hp1 : p ≠ positNaR c) (hq0 : q ≠ positZero c) (hq1 : q ≠ positNaR c)
    (h : regimeValue c p < regimeValue c q) : (magnitude c p).toNat < (magnitude c q).toNat := by
  have hrange := regimeValue_range c q hN hq0 hq1
  rw [magnitude_eq_regimeFloor_add_tailBits c q hN hq0 hq1]
  exact (magnitude_lt_regimeFloor c p hN hp0 hp1 h (by omega)).trans_le (Nat.le_add_right _ _)

/-- The least pattern of a regime decodes to that regime and a tail of zeros. -/
theorem fields_of_magnitude_eq_regimeFloor (c : Config) (p : BitVec c.N) (hN : 3 ≤ c.N) (h0 : p ≠ positZero c)
    (h1 : p ≠ positNaR c) {k : Int} (hk : k.natAbs ≤ c.N - 2) (h : (magnitude c p).toNat = regimeFloor c k) :
    regimeValue c p = k ∧ tailBits c p = 0 := by
  have hrange := regimeValue_range c p hN h0 h1
  have hsplit := magnitude_eq_regimeFloor_add_tailBits c p hN h0 h1
  have hkp : regimeValue c p = k := by
    rcases lt_trichotomy (regimeValue c p) k with hlt | heq | hgt
    · have := magnitude_lt_regimeFloor c p hN h0 h1 hlt (by omega)
      omega
    · exact heq
    · have hstep := regimeFloor_succ hN (show -(c.N - 2 : Nat) ≤ k by omega) (by omega)
      have hmono := regimeFloor_mono hN (show -(c.N - 2 : Nat) ≤ k + 1 by omega) hgt (by omega)
      have : 0 < 2 ^ (c.N - 2 - regimeLength k) := by positivity
      omega
  rw [hkp] at hsplit
  exact ⟨hkp, by omega⟩

/-! ### The magnitude of the value (R86) -/

/-- `|val(p)|`: 0 for ZERO, else `2^scale * (1 + f / 2^nf)` (R86). -/
noncomputable def valueMagnitude (c : Config) (p : BitVec c.N) : ℝ :=
  if p = positZero c then 0 else (2 : ℝ) ^ scaleOf c p * (1 + (fraction c p : ℝ) / 2 ^ fractionLength c p)

@[simp] theorem valueMagnitude_positZero (c : Config) : valueMagnitude c (positZero c) = 0 := if_pos rfl

/-- A pattern that has a value is not NaR. -/
theorem ne_positNaR_of_realValue (c : Config) {p : BitVec c.N} {x : ℝ} (hx : Reals.value c p = some x) :
    p ≠ positNaR c := by
  rintro rfl
  rw [(realValue_eq_none_iff c _).2 rfl] at hx
  cases hx

/-- The value is its magnitude with the pattern's sign. -/
theorem realValue_eq_signed_valueMagnitude (c : Config) (p : BitVec c.N) (h1 : p ≠ positNaR c) :
    Reals.value c p = some (if p.msb then -valueMagnitude c p else valueMagnitude c p) := by
  rw [Reals.value, if_neg h1, valueMagnitude]
  split_ifs <;> simp

theorem valueMagnitude_pos (c : Config) (p : BitVec c.N) (h0 : p ≠ positZero c) : 0 < valueMagnitude c p := by
  rw [valueMagnitude, if_neg h0]
  have := zpow_pos (two_pos (α := ℝ)) (scaleOf c p)
  positivity

theorem valueMagnitude_nonneg (c : Config) (p : BitVec c.N) : 0 ≤ valueMagnitude c p := by
  by_cases h0 : p = positZero c
  · rw [h0, valueMagnitude_positZero]
  · exact (valueMagnitude_pos c p h0).le

/-- The magnitude of the value is read from the magnitude pattern alone (R80). -/
theorem valueMagnitude_congr (c : Config) (p q : BitVec c.N) (hp0 : p ≠ positZero c) (hq0 : q ≠ positZero c)
    (h : magnitude c p = magnitude c q) : valueMagnitude c p = valueMagnitude c q := by
  have hbit : regimeBit c p = regimeBit c q := by rw [regimeBit, regimeBit, h]
  have hrun : regimeRun c p = regimeRun c q := by rw [regimeRun, regimeRun, hbit, h]
  have hk : regimeValue c p = regimeValue c q := by rw [regimeValue, regimeValue, hbit, hrun]
  have hrem : tailLength c p = tailLength c q := by rw [tailLength, tailLength, consumedBits, consumedBits, hrun]
  have htail : tailBits c p = tailBits c q := by rw [tailBits, tailBits, h, hrem]
  have hexp : exponent c p = exponent c q := by rw [exponent, exponent, htail, hrem]
  have hnf : fractionLength c p = fractionLength c q := by rw [fractionLength, fractionLength, hrem]
  have hfrac : fraction c p = fraction c q := by rw [fraction, fraction, htail, hnf]
  rw [valueMagnitude, valueMagnitude, if_neg hp0, if_neg hq0, scaleOf, scaleOf, hk, hexp, hfrac, hnf]

/-- A nonzero magnitude is at least the power of two of its scale and below the next one. -/
theorem valueMagnitude_scale_bounds (c : Config) (p : BitVec c.N) (h0 : p ≠ positZero c) :
    (2 : ℝ) ^ scaleOf c p ≤ valueMagnitude c p ∧ valueMagnitude c p < (2 : ℝ) ^ (scaleOf c p + 1) := by
  have hz := zpow_pos (two_pos (α := ℝ)) (scaleOf c p)
  have hf : (fraction c p : ℝ) / 2 ^ fractionLength c p < 1 := by
    rw [div_lt_one (by positivity)]; exact_mod_cast fraction_lt c p
  rw [valueMagnitude, if_neg h0, zpow_add_one₀ two_ne_zero]
  exact ⟨le_mul_of_one_le_right hz.le (le_add_of_nonneg_right (by positivity)),
    mul_lt_mul_of_pos_left (by linarith) hz⟩

/-- Magnitudes are ordered by their scales first. -/
theorem valueMagnitude_lt_of_scaleOf_lt (c : Config) (p q : BitVec c.N) (hp0 : p ≠ positZero c)
    (hq0 : q ≠ positZero c) (h : scaleOf c p < scaleOf c q) : valueMagnitude c p < valueMagnitude c q :=
  calc valueMagnitude c p < (2 : ℝ) ^ (scaleOf c p + 1) := (valueMagnitude_scale_bounds c p hp0).2
    _ ≤ (2 : ℝ) ^ scaleOf c q := zpow_le_zpow_right₀ one_le_two h
    _ ≤ valueMagnitude c q := (valueMagnitude_scale_bounds c q hq0).1

/-- A lower regime has a lower scale: an exponent stays below `2^ES`. -/
theorem scaleOf_lt_of_regimeValue_lt (c : Config) (p q : BitVec c.N) (h : regimeValue c p < regimeValue c q) :
    scaleOf c p < scaleOf c q := by
  have he : (exponent c p : Int) < 2 ^ c.ES := by exact_mod_cast exponent_lt c p
  have hk : (regimeValue c p + 1) * 2 ^ c.ES ≤ regimeValue c q * 2 ^ c.ES :=
    Int.mul_le_mul_of_nonneg_right h (by positivity)
  rw [scaleOf, scaleOf, pow2_eq]
  linarith [Int.natCast_nonneg (exponent c q)]

/-- Two patterns of one regime have tails of one length. -/
theorem tailLength_eq_of_regimeValue_eq (c : Config) (p q : BitVec c.N) (hN : 3 ≤ c.N)
    (h : regimeValue c p = regimeValue c q) : tailLength c p = tailLength c q := by
  rw [tailLength_eq c p hN, tailLength_eq c q hN, ← regimeLength_regimeValue c p hN, h,
    regimeLength_regimeValue c q hN]

/-- In one regime, magnitudes are ordered as the tails are: by the exponent, then by the fraction. -/
theorem valueMagnitude_lt_of_tailBits_lt (c : Config) (p q : BitVec c.N) (hN : 3 ≤ c.N) (hp0 : p ≠ positZero c)
    (hq0 : q ≠ positZero c) (hk : regimeValue c p = regimeValue c q) (ht : tailBits c p < tailBits c q) :
    valueMagnitude c p < valueMagnitude c q := by
  have hrem := tailLength_eq_of_regimeValue_eq c p q hN hk
  have hnf : fractionLength c p = fractionLength c q := by rw [fractionLength, fractionLength, hrem]
  have hfields : exponent c p * 2 ^ fractionLength c q + fraction c p
      < exponent c q * 2 ^ fractionLength c q + fraction c q := by
    rw [exponent_fraction_eq c q, ← hnf, exponent_fraction_eq c p, hrem]
    exact Nat.mul_lt_mul_of_pos_right ht (by positivity)
  rcases lt_trichotomy (exponent c p) (exponent c q) with he | he | he
  · apply valueMagnitude_lt_of_scaleOf_lt c p q hp0 hq0
    rw [scaleOf, scaleOf, hk]; omega
  · have hf : (fraction c p : ℝ) < fraction c q := by
      rw [he] at hfields; exact_mod_cast Nat.lt_of_add_lt_add_left hfields
    have hs : scaleOf c p = scaleOf c q := by rw [scaleOf, scaleOf, hk, he]
    have hz := zpow_pos (two_pos (α := ℝ)) (scaleOf c q)
    rw [valueMagnitude, valueMagnitude, if_neg hp0, if_neg hq0, hs, hnf]
    gcongr
  · have hmul : (exponent c q + 1) * 2 ^ fractionLength c q ≤ exponent c p * 2 ^ fractionLength c q :=
      Nat.mul_le_mul_right _ he
    have := fraction_lt c q
    rw [add_one_mul] at hmul
    omega

/-! ### The order of the magnitudes (R25) -/

theorem valueMagnitude_lt_of_magnitude_lt (c : Config) (p q : BitVec c.N) (hN : 3 ≤ c.N) (hp0 : p ≠ positZero c)
    (hp1 : p ≠ positNaR c) (hq0 : q ≠ positZero c) (hq1 : q ≠ positNaR c)
    (h : (magnitude c p).toNat < (magnitude c q).toNat) : valueMagnitude c p < valueMagnitude c q := by
  rcases lt_trichotomy (regimeValue c p) (regimeValue c q) with hk | hk | hk
  · exact valueMagnitude_lt_of_scaleOf_lt c p q hp0 hq0 (scaleOf_lt_of_regimeValue_lt c p q hk)
  · rw [magnitude_eq_regimeFloor_add_tailBits c p hN hp0 hp1, magnitude_eq_regimeFloor_add_tailBits c q hN hq0 hq1,
      hk] at h
    exact valueMagnitude_lt_of_tailBits_lt c p q hN hp0 hq0 hk (Nat.lt_of_add_lt_add_left h)
  · exact absurd h (magnitude_lt_of_regimeValue_lt c q p hN hq0 hq1 hp0 hp1 hk).not_gt

/-- The magnitudes of two values compare as the magnitude patterns do, ZERO included. -/
theorem valueMagnitude_lt_iff (c : Config) (p q : BitVec c.N) (hN : 3 ≤ c.N) (hp1 : p ≠ positNaR c)
    (hq1 : q ≠ positNaR c) :
    valueMagnitude c p < valueMagnitude c q ↔ (magnitude c p).toNat < (magnitude c q).toNat := by
  by_cases hq0 : q = positZero c
  · have := valueMagnitude_nonneg c p
    simp [hq0, this]
  by_cases hp0 : p = positZero c
  · have hq := (magnitude_range c (by omega) q hq0 hq1).1
    simp [hp0, hq, valueMagnitude_pos c q hq0]
  refine ⟨fun h => ?_, valueMagnitude_lt_of_magnitude_lt c p q hN hp0 hp1 hq0 hq1⟩
  rcases lt_trichotomy (magnitude c p).toNat (magnitude c q).toNat with hlt | heq | hgt
  · exact hlt
  · exact absurd h (valueMagnitude_congr c p q hp0 hq0 (BitVec.eq_of_toNat_eq heq)).not_lt
  · exact absurd h (valueMagnitude_lt_of_magnitude_lt c q p hN hq0 hq1 hp0 hp1 hgt).not_gt

/-! ### Patterns as signed integers -/

/-- A pattern as a signed integer is its magnitude pattern with its sign. -/
theorem toInt_eq_signed_magnitude (c : Config) (p : BitVec c.N) :
    p.toInt = if p.msb then -((magnitude c p).toNat : Int) else (magnitude c p).toNat := by
  have hlt := p.isLt
  rw [magnitude, signBit_eq_msb, BitVec.toInt_eq_msb_cond]
  split_ifs with h
  · have hhalf : 2 ^ (c.N - 1) ≤ p.toNat := BitVec.le_toNat_of_msb_true h
    have : 0 < 2 ^ (c.N - 1) := by positivity
    rw [BitVec.toNat_neg, Nat.mod_eq_of_lt (by omega)]
    omega
  · rfl

theorem ne_positZero_of_msb (c : Config) {p : BitVec c.N} (h : p.msb = true) : p ≠ positZero c := by
  rintro rfl; simp [positZero] at h

/-- R25 for two patterns that have values. -/
theorem realValue_lt_iff_toInt_lt (c : Config) (p q : BitVec c.N) (hN : 3 ≤ c.N) {x y : ℝ}
    (hx : Reals.value c p = some x) (hy : Reals.value c q = some y) : x < y ↔ p.toInt < q.toInt := by
  have hp1 : p ≠ positNaR c := ne_positNaR_of_realValue c hx
  have hq1 : q ≠ positNaR c := ne_positNaR_of_realValue c hy
  rw [realValue_eq_signed_valueMagnitude c p hp1, Option.some.injEq] at hx
  rw [realValue_eq_signed_valueMagnitude c q hq1, Option.some.injEq] at hy
  have hp := valueMagnitude_nonneg c p
  have hq := valueMagnitude_nonneg c q
  rw [← hx, ← hy, toInt_eq_signed_magnitude c p, toInt_eq_signed_magnitude c q]
  cases hps : p.msb <;> cases hqs : q.msb
  case false.false => simpa using valueMagnitude_lt_iff c p q hN hp1 hq1
  case true.true => simpa using valueMagnitude_lt_iff c q p hN hq1 hp1
  case false.true =>
    simp only [Bool.false_eq_true, if_true, if_false]
    constructor
    · intro h; linarith
    · omega
  case true.false =>
    have hp0 := ne_positZero_of_msb c hps
    have hv := valueMagnitude_pos c p hp0
    have hm := (magnitude_range c (by omega) p hp0 hp1).1
    simp only [Bool.false_eq_true, if_true, if_false]
    exact ⟨fun _ => by omega, fun _ => by linarith⟩

/-- NaR is below every other pattern (R25). -/
theorem positNaR_toInt_lt (c : Config) (p : BitVec c.N) (h1 : p ≠ positNaR c) : (positNaR c).toInt < p.toInt := by
  rw [positNaR_eq_intMin] at h1 ⊢
  exact lt_of_le_of_ne (BitVec.toInt_intMin_le p) fun h => h1 (BitVec.eq_of_toInt_eq h.symm)

/-- Settles O23: the sign orders the patterns first, then the magnitude does, and the magnitude pattern and the
magnitude of the value are ordered alike, by the regime and then by the tail. -/
theorem patternsAreOrderedLikeTheirValues : Obligations.PatternsAreOrderedLikeTheirValues := by
  intro c p q hc
  have hN : 3 ≤ c.N := hc.1
  exact ⟨fun x y hx hy => realValue_lt_iff_toInt_lt c p q hN hx hy, positNaR_toInt_lt c p⟩

/-! ### Negation (R26) -/

theorem neg_ne_positZero (c : Config) {p : BitVec c.N} (h0 : p ≠ positZero c) : -p ≠ positZero c := by
  simpa [positZero] using h0

/-- Only NaR is negated to NaR (R26). -/
theorem neg_ne_positNaR (c : Config) {p : BitVec c.N} (h1 : p ≠ positNaR c) : -p ≠ positNaR c := by
  rw [positNaR_eq_intMin] at h1 ⊢
  exact mt BitVec.neg_eq_intMin.1 h1

/-- Negation flips the sign bit of every pattern but ZERO and NaR. -/
theorem msb_neg_eq_not (c : Config) {p : BitVec c.N} (h0 : p ≠ positZero c) (h1 : p ≠ positNaR c) :
    (-p).msb = !p.msb := by
  rw [positNaR_eq_intMin] at h1
  have hzero : (p != 0#c.N) = true := bne_iff_ne.2 h0
  rw [BitVec.msb_neg, hzero, bne_iff_ne.2 h1, Bool.and_true, Bool.true_xor]

/-- Negation keeps the magnitude pattern (R80). -/
theorem magnitude_neg (c : Config) {p : BitVec c.N} (h0 : p ≠ positZero c) (h1 : p ≠ positNaR c) :
    magnitude c (-p) = magnitude c p := by
  rw [magnitude, magnitude, signBit_eq_msb, signBit_eq_msb, msb_neg_eq_not c h0 h1]
  cases p.msb <;> simp

/-- `val(neg(p)) = -val(p)` (R26). -/
theorem realValue_neg (c : Config) {p : BitVec c.N} {x : ℝ} (hx : Reals.value c p = some x) :
    Reals.value c (-p) = some (-x) := by
  have h1 : p ≠ positNaR c := ne_positNaR_of_realValue c hx
  rw [realValue_eq_signed_valueMagnitude c p h1, Option.some.injEq] at hx
  rw [realValue_eq_signed_valueMagnitude c _ (neg_ne_positNaR c h1), ← hx]
  by_cases h0 : p = positZero c
  · have hneg : -positZero c = positZero c := by simp [positZero]
    simp [h0, hneg]
  · rw [msb_neg_eq_not c h0 h1,
      valueMagnitude_congr c _ p (neg_ne_positZero c h0) h0 (magnitude_neg c h0 h1)]
    cases p.msb <;> simp

/-! ### The values of the pattern constants (R23) -/

/-- The least positive pattern of the regime `k` has the value `useed^k`. -/
theorem realValue_of_toNat_eq_regimeFloor (c : Config) (p : BitVec c.N) (hN : 3 ≤ c.N) {k : Int}
    (hk : k.natAbs ≤ c.N - 2) (h : p.toNat = regimeFloor c k) : Reals.value c p = some ((c.useed : ℝ) ^ k) := by
  have hlt : p.toNat < 2 ^ (c.N - 1) := h ▸ regimeFloor_lt hN k
  have hpos : 0 < p.toNat := h ▸ regimeFloor_pos hN k
  have h0 : p ≠ positZero c := by rintro rfl; simp [positZero] at hpos
  have h1 : p ≠ positNaR c := by rintro rfl; simp [positNaR_toNat c (show 1 ≤ c.N by omega)] at hlt
  have hmsb : p.msb = false := BitVec.msb_eq_false_iff_two_mul_lt.2 (by have := two_pow_width hN; omega)
  have hmag : magnitude c p = p := by simp [magnitude, signBit_eq_msb, hmsb]
  obtain ⟨hkp, htail⟩ := fields_of_magnitude_eq_regimeFloor c p hN h0 h1 hk (by rw [hmag, h])
  have hexp : exponent c p = 0 := by simp [exponent, htail]
  have hfrac : fraction c p = 0 := by simp [fraction, htail]
  rw [realValue_eq_signed_valueMagnitude c p h1, hmsb, valueMagnitude, if_neg h0, scaleOf, hkp, hexp, hfrac]
  simp [Config.useed, mul_comm k, zpow_mul, ← zpow_natCast]

theorem realValue_positZero (c : Config) (hN : 3 ≤ c.N) : Reals.value c (positZero c) = some 0 := by
  have hne : positZero c ≠ positNaR c := fun h => by
    have := congrArg BitVec.toNat h
    rw [positNaR_toNat c (by omega)] at this
    exact (Nat.two_pow_pos (c.N - 1)).ne this
  rw [Reals.value, if_neg hne, if_pos rfl]

theorem realValue_positOne (c : Config) (hN : 3 ≤ c.N) : Reals.value c (positOne c) = some 1 := by
  have hpow := two_pow_pred_width hN
  rw [realValue_of_toNat_eq_regimeFloor c _ hN (k := 0) (by simp), zpow_zero]
  rw [positOne_toNat hN, regimeFloor_of_nonneg c le_rfl, Int.toNat_zero, Nat.sub_zero]
  omega

theorem realValue_positMaxPos (c : Config) (hN : 3 ≤ c.N) :
    Reals.value c (positMaxPos c) = some ((c.useed : ℝ) ^ (c.N - 2)) := by
  rw [realValue_of_toNat_eq_regimeFloor c _ hN (k := (c.N - 2 : Nat)) (by simp), zpow_natCast]
  rw [positMaxPos_toNat hN, regimeFloor_of_nonneg c (Int.natCast_nonneg _)]
  simp

theorem realValue_positMinPos (c : Config) (hN : 3 ≤ c.N) :
    Reals.value c (positMinPos c) = some ((c.useed : ℝ) ^ (c.N - 2))⁻¹ := by
  rw [realValue_of_toNat_eq_regimeFloor c _ hN (k := -(c.N - 2 : Nat)) (by simp), zpow_neg, zpow_natCast]
  rw [positMinPos_toNat hN, regimeFloor_of_neg c (by omega)]
  simp

/-- Settles O24: ONE, MAXPOS and MINPOS are the least patterns of the regimes `0`, `N-2` and `-(N-2)`, and negation of
a pattern negates its value. -/
theorem patternConstantsHaveTheirValues : Obligations.PatternConstantsHaveTheirValues := by
  intro c hc
  have hN : 3 ≤ c.N := hc.1
  have hhalf := two_pow_width hN
  have hquarter := two_pow_pred_width hN
  have hpos : 0 < 2 ^ (c.N - 2) := by positivity
  have hOne := positOne_toNat hN
  have hMax := positMaxPos_toNat hN
  have hMin := positMinPos_toNat hN
  refine ⟨rfl, positNaR_toNat c (by omega), hOne, hMax, hMin, ?_, ?_, ?_, realValue_positZero c hN,
    (realValue_eq_none_iff c _).2 rfl, realValue_positOne c hN, realValue_positMaxPos c hN, realValue_positMinPos c hN,
    realValue_neg c (realValue_positOne c hN), realValue_neg c (realValue_positMaxPos c hN),
    realValue_neg c (realValue_positMinPos c hN), fun p => (realValue_eq_none_iff c p).1⟩
  all_goals
    rw [BitVec.toNat_neg, Nat.mod_eq_of_lt (by omega)]
    omega

end Sys2Proof.Machine
end

section
/-! PROOFS. The decoder and the reserved opcodes (spec/30_encoding.md R64, R67). One lemma splits all records into those
of a command and those that `decode` refuses; another says that a command never answers with the refusal of an opcode. -/

namespace Sys2Proof

open Sys2Proof.Machine

/-! ### The decoder -/

/-- The values of `cmd.op` that are in no row of the opcode map, as the ranges R67 lists. -/
def reservedOp (n : Nat) : Prop :=
  n = 0x00 ∨ (0x04 ≤ n ∧ n ≤ 0x0F) ∨ (0x18 ≤ n ∧ n ≤ 0x1F) ∨ (0x27 ≤ n ∧ n ≤ 0xFF)

/-- All that `decode` can answer: a command that has the record's opcode, or the refusal of a reserved opcode. -/
theorem decode_cases (cmd : Cmd) :
    (¬ reservedOp cmd.op.toNat ∧ ∃ i, decode cmd = .ok i ∧ cmd.op = (encode i).op) ∨
    (reservedOp cmd.op.toNat ∧ decode cmd = .error (.reservedOpcode cmd.op)) := by
  have hlt : cmd.op.toNat < 256 := cmd.op.isLt
  unfold decode reservedOp
  split
  case h_19 =>
    refine .inr ⟨?_, rfl⟩
    simp only [imp_false] at *
    omega
  all_goals exact .inl ⟨by omega, _, rfl, BitVec.eq_of_toNat_eq ‹cmd.op.toNat = _›⟩

theorem decode_eq_error_iff (cmd : Cmd) (op : Opcode) :
    decode cmd = .error (.reservedOpcode op) ↔ op = cmd.op ∧ reservedOp cmd.op.toNat := by
  obtain ⟨hn, i, hd, -⟩ | ⟨hr, hd⟩ := decode_cases cmd
  · simp [hd, hn]
  · simp [hd, hr, eq_comm]

theorem op_of_decode {cmd : Cmd} {i : Instr} (h : decode cmd = .ok i) : cmd.op = (encode i).op := by
  obtain ⟨-, j, hd, hop⟩ | ⟨-, hd⟩ := decode_cases cmd <;> cases h.symm.trans hd
  exact hop

/-- Settles O2: with the opcode known, every row is one evaluation of the decoder. -/
theorem opcodesSelectTheCommandAndItsFields : Obligations.OpcodesSelectTheCommandAndItsFields := by
  rintro ⟨op, a, b, s, c, d, t⟩
  and_intros <;> (rintro rfl; rfl)

theorem decode_of_op_qrd {cmd : Cmd} (h : cmd.op = 0x25) : decode cmd = .ok (.qrd cmd.c) := by simp [decode, h]

theorem decode_of_op_qwr {cmd : Cmd} (h : cmd.op = 0x26) : decode cmd = .ok (.qwr cmd.c cmd.d) := by simp [decode, h]

/-- A record read as QRD has its opcode, and the index is the field `c`. -/
theorem fields_of_decode_qrd {cmd : Cmd} {idx : Half} (h : decode cmd = .ok (.qrd idx)) :
    cmd.op = 0x25 ∧ cmd.c = idx := by
  have hop : cmd.op = 0x25 := op_of_decode h
  cases (decode_of_op_qrd hop).symm.trans h
  exact ⟨hop, rfl⟩

/-- A record read as QWR has its opcode, and the index and the datum are the fields `c` and `d`. -/
theorem fields_of_decode_qwr {cmd : Cmd} {idx : Half} {data : QuireWord} (h : decode cmd = .ok (.qwr idx data)) :
    cmd.op = 0x26 ∧ cmd.c = idx ∧ cmd.d = data := by
  have hop : cmd.op = 0x26 := op_of_decode h
  cases (decode_of_op_qwr hop).symm.trans h
  exact ⟨hop, rfl, rfl⟩

end Sys2Proof

namespace Sys2Proof.Machine

/-! ### The outcomes of a command and of a record -/

/-- All that a command can answer: a next state, or, for QRD and QWR, the refusal of an index out of range (R45). -/
theorem exec_outcome_cases (i : Instr) (s : State) :
    (∃ t, exec i s = .next t) ∨
    ∃ idx : Half, (i = .qrd idx ∨ ∃ data, i = .qwr idx data) ∧ s.cfg.quireWords ≤ idx.toNat ∧
      exec i s = .refused (.quireIndexOutOfRange idx) := by
  cases i
  case qrd idx =>
    by_cases hi : idx.toNat < s.cfg.quireWords
    · exact .inl ⟨_, exec_qrd s hi⟩
    · exact .inr ⟨idx, .inl rfl, not_lt.1 hi, exec_qrd_refused s hi⟩
  case qwr idx data =>
    by_cases hi : idx.toNat < s.cfg.quireWords
    · exact .inl ⟨_, exec_qwr s data hi⟩
    · exact .inr ⟨idx, .inr ⟨data, rfl⟩, not_lt.1 hi, exec_qwr_refused s data hi⟩
  all_goals exact .inl ⟨_, rfl⟩

theorem exec_ne_reservedOpcode (i : Instr) (s : State) (op : Opcode) : exec i s ≠ .refused (.reservedOpcode op) := by
  obtain ⟨t, h⟩ | ⟨idx, -, -, h⟩ := exec_outcome_cases i s <;> simp [h]

theorem runCommand_of_decode {cmd : Cmd} {i : Instr} (h : decode cmd = .ok i) (s : State) :
    runCommand cmd s = exec i s := by rw [runCommand, h]

/-- Only the decoder refuses a record for its opcode. -/
theorem runCommand_eq_reservedOpcode_iff (cmd : Cmd) (s : State) (op : Opcode) :
    runCommand cmd s = .refused (.reservedOpcode op) ↔ decode cmd = .error (.reservedOpcode op) := by
  obtain ⟨-, i, hd, -⟩ | ⟨-, hd⟩ := decode_cases cmd
  · simp [runCommand_of_decode hd, exec_ne_reservedOpcode, hd]
  · simp [runCommand, hd]

theorem step_of_command {s : State} {cmd : Cmd} {rest : List HostEvent} (hl : s.instanceLegal)
    (hp : s.pending = .command cmd :: rest) : step s = runCommand cmd { s with pending := rest } := by
  rw [step_of_legal hl, hp]; rfl

/-- A command's record is answered, or it is QRD or QWR and the field `c` is no index of a quire word. -/
theorem exec_of_decode_cases {cmd : Cmd} {i : Instr} (h : decode cmd = .ok i) (s : State) :
    (∃ t, exec i s = .next t) ∨ ((cmd.op = 0x25 ∨ cmd.op = 0x26) ∧ s.cfg.quireWords ≤ cmd.c.toNat) := by
  obtain hnext | ⟨idx, rfl | ⟨data, rfl⟩, hi, -⟩ := exec_outcome_cases i s
  · exact .inl hnext
  · obtain ⟨hop, rfl⟩ := fields_of_decode_qrd h
    exact .inr ⟨.inl hop, hi⟩
  · obtain ⟨hop, rfl, -⟩ := fields_of_decode_qwr h
    exact .inr ⟨.inr hop, hi⟩

/-- Settles O6: the step runs the presented record, only the decoder refuses a record for its opcode, and it does so
exactly on the reserved ranges; the count is an enumeration of the 256 opcodes. -/
theorem reservedOpcodesAreRefused : Obligations.ReservedOpcodesAreRefused := by
  refine ⟨by decide +kernel, fun s cmd rest hl hp => ?_⟩
  rw [step_of_command hl hp]
  constructor
  · rw [runCommand_eq_reservedOpcode_iff, decode_eq_error_iff]
    exact and_iff_right rfl
  · intro i hd
    rw [runCommand_of_decode hd]
    exact exec_of_decode_cases hd _

end Sys2Proof.Machine
end

section
/-! PROOFS. What PDEC reports (spec/40_codec.md R88): the response's fields are the decoded fields, none cut by its
width in the record, and the tail justified in N-1 bits is the exponent followed by the fraction. -/

namespace Sys2Proof.Machine

open Sys2Proof

section
variable (c : Config) (p : BitVec c.N)

/-! ### The regime run (R81) -/

/-- The bits of the run equal the first regime bit. -/
theorem regimeRun_bits {j : Nat} (hj : j < regimeRun c p) :
    (magnitude c p).getLsbD (c.N - 2 - j) = (magnitude c p).getLsbD (c.N - 2) :=
  leadingRun_bits _ _ (c.N - 1) j hj

/-- The terminator differs from the run's bits, if the run leaves room for it. -/
theorem regimeRun_ends (h : regimeRun c p < c.N - 1) :
    (magnitude c p).getLsbD (c.N - 2 - regimeRun c p) = ! (magnitude c p).getLsbD (c.N - 2) :=
  leadingRun_ends _ _ (c.N - 1) h

/-! ### The justified tail (R83 to R85) -/

/-- The fraction fits the bits below the exponent. -/
theorem fractionLength_le_below_exponent : fractionLength c p ≤ c.N - 1 - c.ES := by
  have hlen := tailLength_add_consumed c p
  rw [fractionLength]; omega

/-- The fraction followed by zeros is below the exponent. -/
theorem fraction_justified_lt :
    fraction c p * 2 ^ (c.N - 1 - c.ES - fractionLength c p) < 2 ^ (c.N - 1 - c.ES) := by
  rw [← pow_mul_pow_sub 2 (fractionLength_le_below_exponent c p)]
  exact Nat.mul_lt_mul_of_pos_right (fraction_lt c p) (by positivity)

/-- The justified tail is the exponent in its top ES bits and, below, the fraction followed by zeros. -/
theorem tailJustified_eq_exponent_fraction (hES : c.ES ≤ c.N - 1) :
    tailJustified c p
      = exponent c p * 2 ^ (c.N - 1 - c.ES) + fraction c p * 2 ^ (c.N - 1 - c.ES - fractionLength c p) := by
  have hlen := tailLength_add_consumed c p
  have hconsumed : 2 ^ consumedBits c p
      = 2 ^ (c.ES - tailLength c p) * 2 ^ (c.N - 1 - c.ES - fractionLength c p) := by
    rw [← pow_add, fractionLength]; congr 1; omega
  rw [tailJustified_eq, hconsumed, ← mul_assoc, ← exponent_fraction_eq, add_mul, mul_assoc,
    pow_mul_pow_sub 2 (fractionLength_le_below_exponent c p)]

/-- The exponent is the top ES bits of the justified tail (R84). -/
theorem exponent_eq_tailJustified_div (hES : c.ES ≤ c.N - 1) :
    exponent c p = tailJustified c p / 2 ^ (c.N - 1 - c.ES) := by
  rw [tailJustified_eq_exponent_fraction c p hES, mul_comm, Nat.mul_add_div (by positivity),
    Nat.div_eq_of_lt (fraction_justified_lt c p), add_zero]

/-- `frac64` is the rest of the justified tail, moved up to 64 bits (R85). -/
theorem fraction64_eq_tailJustified_mod (hN : c.N ≤ 32) (hES : c.ES ≤ c.N - 1) :
    fraction64 c p = tailJustified c p % 2 ^ (c.N - 1 - c.ES) * 2 ^ (64 - (c.N - 1 - c.ES)) := by
  have hnf := fractionLength_le_below_exponent c p
  rw [tailJustified_eq_exponent_fraction c p hES, Nat.mul_add_mod_of_lt (fraction_justified_lt c p), mul_assoc,
    ← pow_add, fraction64]
  split_ifs with hpos
  · congr 2; omega
  · have hzero : fraction c p = 0 := by simpa [Nat.eq_zero_of_not_pos hpos] using fraction_lt c p
    rw [hzero, zero_mul]

/-- Bit `j` of the justified tail, counted from its top, is bit `j` after the terminator, and 0 past the tail's end
(R83). -/
theorem testBit_tailJustified (hN : 3 ≤ c.N) {j : Nat} (hj : j < c.N - 1) :
    (tailJustified c p).testBit (c.N - 2 - j)
      = (decide (j < c.N - 2 - regimeRun c p) && (magnitude c p).getLsbD (c.N - 3 - regimeRun c p - j)) := by
  have hlen := tailLength_add_consumed c p
  have hrem := tailLength_eq c p hN
  rw [tailJustified_eq, Nat.testBit_mul_two_pow, tailBits, Nat.testBit_mod_two_pow, BitVec.getLsbD]
  by_cases hin : j < c.N - 2 - regimeRun c p
  · rw [show c.N - 2 - j - consumedBits c p = c.N - 3 - regimeRun c p - j by omega]
    simp [hin, show consumedBits c p ≤ c.N - 2 - j by omega,
      show c.N - 3 - regimeRun c p - j < tailLength c p by omega]
  · simp [hin, show ¬ consumedBits c p ≤ c.N - 2 - j by omega]

/-! ### The scale (R86) -/

/-- The regime of MAXPOS fills the word and leaves no exponent bits (R83, R84). -/
theorem exponent_of_max_regime (hN : 3 ≤ c.N) (hk : regimeValue c p = (c.N - 2 : Nat)) : exponent c p = 0 := by
  have hrun := regimeLength_regimeValue c p hN
  have hrem := tailLength_eq c p hN
  rw [hk, regimeLength, if_pos (Int.natCast_nonneg _), Int.toNat_natCast] at hrun
  have htail : tailBits c p = 0 := by simpa [show tailLength c p = 0 by omega] using tailBits_lt c p
  simp [exponent, htail]

/-- The range of the scale (R86). -/
theorem scaleOf_range (hN : 3 ≤ c.N) (h0 : p ≠ positZero c) (h1 : p ≠ positNaR c) :
    |scaleOf c p| ≤ 2 ^ c.ES * (c.N - 2 : Nat) := by
  have hk := regimeValue_range c p hN h0 h1
  have he : (exponent c p : Int) < 2 ^ c.ES := mod_cast exponent_lt c p
  have hpow : (0 : Int) < 2 ^ c.ES := by positivity
  rw [scaleOf, pow2_eq, abs_le]
  constructor
  · have := mul_nonneg hpow.le (show 0 ≤ regimeValue c p + (c.N - 2 : Nat) by omega)
    linarith
  · by_cases hmax : regimeValue c p = (c.N - 2 : Nat)
    · rw [exponent_of_max_regime c p hN hmax, hmax, mul_comm, Nat.cast_zero, add_zero]
    · have := mul_nonneg hpow.le (show 0 ≤ ((c.N - 2 : Nat) : Int) - 1 - regimeValue c p by omega)
      linarith

end

/-! ### The response (R88) -/

theorem positNaR_ne_positZero {c : Config} (hN : 3 ≤ c.N) : positNaR c ≠ positZero c := fun h => by
  have hval := congrArg BitVec.toNat h
  rw [positNaR_toNat c (by omega)] at hval
  exact (Nat.two_pow_pos (c.N - 1)).ne' hval

theorem decodeResponse_positZero (c : Config) :
    decodeResponse c (positZero c) = { Response.empty with zero := true } := by simp [decodeResponse, isZero]

theorem decodeResponse_positNaR {c : Config} (hN : 3 ≤ c.N) :
    decodeResponse c (positNaR c) = { Response.empty with nar := true } := by
  simp [decodeResponse, isZero, isNaR, positNaR_ne_positZero hN]

section
variable {c : Config} (hc : c.Legal) {p : BitVec c.N} (h0 : p ≠ positZero c) (h1 : p ≠ positNaR c)
include h0 h1

/-- The response to a pattern that is neither ZERO nor NaR writes no flag and no posit result. -/
theorem decodeResponse_finite :
    decodeResponse c p =
      { Response.empty with
        sign := p.msb
        k := BitVec.ofInt 8 (regimeValue c p)
        m := BitVec.ofNat 6 (regimeRun c p)
        e := BitVec.ofNat 2 (exponent c p)
        nf := BitVec.ofNat 6 (fractionLength c p)
        scale := BitVec.ofInt 16 (scaleOf c p)
        x := BitVec.ofNat 64 (fraction64 c p)
        tail := BitVec.ofNat 32 (tailJustified c p) } := by
  simp [decodeResponse, isZero, isNaR, h0, h1, signBit_eq_msb]

theorem decodeResponse_flags :
    (decodeResponse c p).r = 0 ∧ (decodeResponse c p).zero = false ∧ (decodeResponse c p).nar = false ∧
    (decodeResponse c p).sign = p.msb := by
  simp [decodeResponse_finite h0 h1, Response.empty]

include hc

theorem decodeResponse_k_toInt : (decodeResponse c p).k.toInt = regimeValue c p := by
  obtain ⟨hN, hN', -⟩ := hc
  have hk := regimeValue_range c p hN h0 h1
  rw [decodeResponse_finite h0 h1]
  exact BitVec.toInt_ofInt_eq_self (by decide) (by omega) (by omega)

theorem decodeResponse_m_toNat : (decodeResponse c p).m.toNat = regimeRun c p := by
  obtain ⟨hN, hN', -⟩ := hc
  have hm := regimeRun_le c p
  rw [decodeResponse_finite h0 h1]
  exact Nat.mod_eq_of_lt (by omega)

theorem decodeResponse_e_toNat : (decodeResponse c p).e.toNat = exponent c p := by
  obtain ⟨-, -, hES, -⟩ := hc
  rw [decodeResponse_finite h0 h1]
  exact Nat.mod_eq_of_lt ((exponent_lt c p).trans_le (Nat.pow_le_pow_right two_pos hES))

theorem decodeResponse_nf_toNat : (decodeResponse c p).nf.toNat = fractionLength c p := by
  obtain ⟨hN, hN', -⟩ := hc
  have hnf := fractionLength_le c p hN
  rw [decodeResponse_finite h0 h1]
  exact Nat.mod_eq_of_lt (by omega)

theorem decodeResponse_scale_toInt : (decodeResponse c p).scale.toInt = scaleOf c p := by
  obtain ⟨hN, hN', hES, -⟩ := hc
  have hscale := abs_le.1 (scaleOf_range c p hN h0 h1)
  have hmax : 2 ^ c.ES * (c.N - 2) ≤ 2 ^ 2 * 30 := Nat.mul_le_mul (Nat.pow_le_pow_right two_pos hES) (by omega)
  zify at hmax
  rw [decodeResponse_finite h0 h1]
  exact BitVec.toInt_ofInt_eq_self (by decide) (by omega) (by omega)

theorem decodeResponse_x_toNat : (decodeResponse c p).x.toNat = fraction64 c p := by
  obtain ⟨hN, hN', -⟩ := hc
  have hnf := fractionLength_le c p hN
  rw [decodeResponse_finite h0 h1]
  exact Nat.mod_eq_of_lt (fraction64_lt c p (by omega))

theorem decodeResponse_tail_toNat : (decodeResponse c p).tail.toNat = tailJustified c p := by
  obtain ⟨hN, hN', -⟩ := hc
  rw [decodeResponse_finite h0 h1]
  exact Nat.mod_eq_of_lt ((tailJustified_lt c p).trans_le (Nat.pow_le_pow_right two_pos (by omega)))

theorem decodeResponse_tail_getLsbD {j : Nat} (hj : j < c.N - 1) :
    (decodeResponse c p).tail.getLsbD (c.N - 2 - j)
      = (decide (j < c.N - 2 - regimeRun c p) && (magnitude c p).getLsbD (c.N - 3 - regimeRun c p - j)) := by
  rw [BitVec.getLsbD, decodeResponse_tail_toNat hc h0 h1, testBit_tailJustified c p hc.1 hj]

end

/-- Settles O20: no field of the response is cut by its width, so it reports the decoded fields: the regime's run with
its end, and the justified tail, which is the exponent followed by the fraction. -/
theorem pdecReportsTheFields : Obligations.PdecReportsTheFields := by
  refine ⟨fun cmd => (opcodesSelectTheCommandAndItsFields cmd).1, fun s a hc => ⟨?_, ?_, ?_⟩⟩
  · intro hz
    rw [exec_pdec, operandPosit, hz, decodeResponse_positZero]; rfl
  · intro hnar
    rw [exec_pdec, operandPosit, hnar, decodeResponse_positNaR hc.1]; rfl
  intro p u hp h0 h1 hu
  have ⟨hN, hN', hES, _⟩ := hc
  obtain rfl : u = magnitude s.cfg p := by rw [hu, magnitude, signBit_eq_msb]
  obtain ⟨hr, hzero, hnar, hsign⟩ := decodeResponse_flags h0 h1
  have hnf : fractionLength s.cfg p = s.cfg.N - 2 - regimeRun s.cfg p - s.cfg.ES := by
    rw [fractionLength, tailLength_eq s.cfg p hN]
  have hscale : scaleOf s.cfg p = regimeValue s.cfg p * 2 ^ s.cfg.ES + exponent s.cfg p := by rw [scaleOf, pow2_eq]
  refine ⟨decodeResponse s.cfg p, by rw [exec_pdec, operandPosit, ← hp]; rfl, hr, hzero, hnar, hsign, ?_⟩
  rw [decodeResponse_m_toNat hc h0 h1, decodeResponse_k_toInt hc h0 h1, decodeResponse_e_toNat hc h0 h1,
    decodeResponse_nf_toNat hc h0 h1, decodeResponse_scale_toInt hc h0 h1, decodeResponse_x_toNat hc h0 h1,
    decodeResponse_tail_toNat hc h0 h1]
  exact ⟨regimeRun_pos s.cfg p hN, regimeRun_le s.cfg p, fun _ => regimeRun_bits s.cfg p, regimeRun_ends s.cfg p, rfl,
    fun _ => decodeResponse_tail_getLsbD hc h0 h1, tailJustified_lt s.cfg p,
    exponent_eq_tailJustified_div s.cfg p (by omega), hnf, fraction64_eq_tailJustified_mod s.cfg p hN' (by omega),
    hscale⟩

end Sys2Proof.Machine
end

section
/-! PROOFS. The rounding packer (spec/41_packer.md R106, R108). The code point of a positive real lies between the
least magnitude patterns of its regime and of the next one and rises with the real, and rounding it keeps both; so
`posit_round` of a positive real is monotone and stays in its regime's interval. -/

namespace Sys2Proof.Machine

open Sys2Proof

/-! ### Rounding a code point (R104) -/

/-- Rounding goes down to the floor or one above it. -/
theorem roundCode_bounds (y : ℝ) : ⌊y⌋₊ ≤ Reals.roundCode y ∧ Reals.roundCode y ≤ ⌊y⌋₊ + 1 := by
  rw [Reals.roundCode]; split_ifs <;> omega

/-- A code point that rounds up, `bit_n_plus_one` being 1, does so with every greater one of the same floor. -/
theorem roundCode_mono_of_floor_eq {x y : ℝ} (hx : 0 ≤ x) (hxy : x ≤ y) (hfloor : ⌊x⌋₊ = ⌊y⌋₊) :
    Reals.roundCode x ≤ Reals.roundCode y := by
  by_cases hup : ⌊2 * x⌋₊ % 2 = 1 ∧ (Int.fract (2 * x) ≠ 0 ∨ ⌊x⌋₊ % 2 = 1)
  case neg =>
    rw [Reals.roundCode, if_neg hup, hfloor]
    exact (roundCode_bounds y).1
  obtain ⟨hbit, hmore⟩ := hup
  have hbits : ⌊2 * y⌋₊ = ⌊2 * x⌋₊ := by
    have hle : ⌊2 * x⌋₊ ≤ ⌊2 * y⌋₊ := Nat.floor_le_floor (by linarith)
    have hlo : 2 * ⌊x⌋₊ ≤ ⌊2 * x⌋₊ := Nat.le_floor (by push_cast; linarith [Nat.floor_le hx])
    have hhi : ⌊2 * y⌋₊ < 2 * ⌊x⌋₊ + 2 := by
      rw [Nat.floor_lt (by linarith), hfloor]; push_cast; linarith [Nat.lt_floor_add_one y]
    omega
  have hfract : Int.fract (2 * x) ≤ Int.fract (2 * y) := by
    rw [← Int.self_sub_floor, ← Int.self_sub_floor, ← natCast_floor_eq_intCast_floor (show 0 ≤ 2 * x by linarith),
      ← natCast_floor_eq_intCast_floor (show 0 ≤ 2 * y by linarith), hbits]
    linarith
  have hmore' : Int.fract (2 * y) ≠ 0 ∨ ⌊y⌋₊ % 2 = 1 := by
    rw [← hfloor]
    exact hmore.imp_left fun h => (((Int.fract_nonneg _).lt_of_ne' h).trans_le hfract).ne'
  rw [Reals.roundCode, Reals.roundCode, if_pos ⟨hbit, hmore⟩, if_pos ⟨hbits ▸ hbit, hmore'⟩, hfloor]

theorem roundCode_mono {x y : ℝ} (hx : 0 ≤ x) (hxy : x ≤ y) : Reals.roundCode x ≤ Reals.roundCode y := by
  rcases (Nat.floor_le_floor hxy).eq_or_lt with hfloor | hfloor
  · exact roundCode_mono_of_floor_eq hx hxy hfloor
  · exact (roundCode_bounds x).2.trans (hfloor.trans_le (roundCode_bounds y).1)

/-! ### The code point in its regime's interval (R102, R105) -/

section
variable (c : Config)

/-- The regime string followed by zeros is the least magnitude pattern of its regime (R100). -/
theorem regimeCode_mul_two_pow {k : Int} (hk : regimeLength k ≤ c.N - 2) :
    Reals.regimeCode k * 2 ^ (c.N - 2 - regimeLength k) = regimeFloor c k := by
  have hpos : 1 ≤ regimeLength k := regimeLength_pos k
  rw [Reals.regimeCode]
  rw [regimeLength] at hk hpos ⊢
  split_ifs at hk hpos ⊢ with h
  · rw [regimeFloor_of_nonneg c h, Nat.sub_mul, ← pow_add, ← pow_succ']
    congr 2 <;> omega
  · rw [regimeFloor_of_neg c (not_le.1 h), one_mul]

/-- The code point is the least pattern of the regime plus the exponent and fraction, scaled to the bits they have. -/
theorem codePoint_eq {x : ℝ} (hk : regimeLength (Reals.regime c x) ≤ c.N - 2) :
    Reals.codePoint c x = regimeFloor c (Reals.regime c x)
      + ((Reals.exponent c x : ℝ) + Reals.phi x) / 2 ^ c.ES * 2 ^ (c.N - 2 - regimeLength (Reals.regime c x)) := by
  have hpos : 1 ≤ regimeLength (Reals.regime c x) := regimeLength_pos _
  have hz : (c.N : ℤ) - 1 - ((Reals.regimeLength (Reals.regime c x) : ℤ) + 1)
      = ((c.N - 2 - regimeLength (Reals.regime c x) : Nat) : ℤ) := by
    rw [← regimeLength_eq]; omega
  rw [Reals.codePoint, hz, zpow_natCast, add_mul, ← regimeCode_mul_two_pow c hk]
  push_cast; rfl

theorem phi_bounds {x : ℝ} (hx : 0 < x) : 0 ≤ Reals.phi x ∧ Reals.phi x < 1 := by
  have hz := zpow_pos (two_pos (α := ℝ)) (Int.log 2 x)
  have hlo : (2 : ℝ) ^ Int.log 2 x ≤ x := by exact_mod_cast Int.zpow_log_le_self one_lt_two hx
  have hhi : x < 2 ^ Int.log 2 x * 2 := by
    rw [← zpow_add_one₀ two_ne_zero]; exact_mod_cast Int.lt_zpow_succ_log_self one_lt_two x
  rw [Reals.phi]
  constructor
  · rw [sub_nonneg, one_le_div hz]; exact hlo
  · rw [sub_lt_iff_lt_add, div_lt_iff₀ hz]; linarith

/-- The exponent and the fraction fill less than the unit of the regime. -/
theorem exponent_add_phi_bounds {x : ℝ} (hx : 0 < x) :
    0 ≤ ((Reals.exponent c x : ℝ) + Reals.phi x) / 2 ^ c.ES ∧
    ((Reals.exponent c x : ℝ) + Reals.phi x) / 2 ^ c.ES < 1 := by
  obtain ⟨hphi0, hphi1⟩ := phi_bounds hx
  have he : Reals.exponent c x = Int.log 2 x % 2 ^ c.ES := by
    rw [Reals.exponent, Reals.regime, Int.emod_def, mul_comm]
  have he0 : (0 : ℝ) ≤ Reals.exponent c x := by
    rw [he]; exact_mod_cast Int.emod_nonneg _ (by positivity)
  have he1 : (Reals.exponent c x : ℝ) + 1 ≤ 2 ^ c.ES := by
    rw [he]; exact_mod_cast Int.emod_lt_of_pos (Int.log 2 x) (show (0 : Int) < 2 ^ c.ES by positivity)
  exact ⟨by positivity, by rw [div_lt_one (by positivity)]; linarith⟩

/-- The scale and the fraction together rise with the real: the fraction stays below the unit of the scale. -/
theorem log_add_phi_mono {x y : ℝ} (hx : 0 < x) (hxy : x ≤ y) :
    (Int.log 2 x : ℝ) + Reals.phi x ≤ Int.log 2 y + Reals.phi y := by
  rcases (Int.log_mono_right (b := 2) hx hxy).eq_or_lt with hlog | hlog
  · rw [Reals.phi, Reals.phi, hlog]
    have hz := zpow_pos (two_pos (α := ℝ)) (Int.log 2 y)
    gcongr
  · have hstep : (Int.log 2 x : ℝ) + 1 ≤ Int.log 2 y := by exact_mod_cast hlog
    linarith [(phi_bounds hx).2, (phi_bounds (hx.trans_le hxy)).1]

theorem regime_mono {x y : ℝ} (hx : 0 < x) (hxy : x ≤ y) : Reals.regime c x ≤ Reals.regime c y :=
  Int.ediv_le_ediv (by positivity) (Int.log_mono_right hx hxy)

/-- In one regime the code point rises with the real. -/
theorem codePoint_mono_of_regime_eq {x y : ℝ} (hx : 0 < x) (hxy : x ≤ y) (hk : Reals.regime c x = Reals.regime c y) :
    Reals.codePoint c x ≤ Reals.codePoint c y := by
  have hmono := log_add_phi_mono hx hxy
  have hz := zpow_pos (two_pos (α := ℝ)) ((c.N : ℤ) - 1 - ((Reals.regimeLength (Reals.regime c y) : ℤ) + 1))
  have hfield : (Reals.exponent c x : ℝ) + Reals.phi x ≤ Reals.exponent c y + Reals.phi y := by
    rw [Reals.exponent, Reals.exponent, hk]; push_cast; linarith
  rw [Reals.codePoint, Reals.codePoint, hk]
  gcongr

/-! ### The magnitude result in its regime's interval (R101, R104) -/

/-- The regime whose patterns a regime value of any size gives: one past an end of the range saturates (R101). -/
def clampRegime (k : Int) : Int := max (-(c.N - 2 : Nat)) (min k (c.N - 2 : Nat))

theorem clampRegime_bounds (k : Int) : -(c.N - 2 : Nat) ≤ clampRegime c k ∧ clampRegime c k ≤ (c.N - 2 : Nat) := by
  rw [clampRegime]; omega

theorem clampRegime_mono {j k : Int} (h : j ≤ k) : clampRegime c j ≤ clampRegime c k := by
  rw [clampRegime, clampRegime]; omega

/-- A run of N-2 bits or fewer leaves the regime value and the next one unclamped. -/
theorem clampRegime_of_regimeLength_le {k : Int} (hk : regimeLength k ≤ c.N - 2) :
    clampRegime c k = k ∧ clampRegime c (k + 1) = k + 1 := by
  rw [regimeLength] at hk
  rw [clampRegime, clampRegime]
  split_ifs at hk <;> omega

/-- A longer run ends at one end of the range, whether its own value or the next is taken. -/
theorem clampRegime_of_lt_regimeLength {k : Int} (hk : c.N - 2 < regimeLength k) :
    clampRegime c k = (if 0 ≤ k then ((c.N - 2 : Nat) : Int) else -((c.N - 2 : Nat) : Int)) ∧
    clampRegime c (k + 1) = clampRegime c k := by
  rw [regimeLength] at hk
  rw [clampRegime, clampRegime]
  split_ifs at hk ⊢ <;> omega

variable {c} (hN : 3 ≤ c.N)
include hN

/-- MAXPOS and MINPOS are the least patterns of the last and the first regime. -/
theorem regimeFloor_extremes :
    regimeFloor c (c.N - 2 : Nat) = 2 ^ (c.N - 1) - 1 ∧ regimeFloor c (-(c.N - 2 : Nat)) = 1 := by
  rw [regimeFloor_of_nonneg c (Int.natCast_nonneg _), regimeFloor_of_neg c (by omega)]
  simp

theorem regimeFloor_clampRegime_mono {j k : Int} (h : j ≤ k) :
    regimeFloor c (clampRegime c j) ≤ regimeFloor c (clampRegime c k) :=
  regimeFloor_mono hN (clampRegime_bounds c j).1 (clampRegime_mono c h) (clampRegime_bounds c k).2

/-- Rounding a code point keeps it in its regime's interval, the next regime's least pattern included. -/
theorem roundCode_codePoint_bounds {x : ℝ} (hx : 0 < x) (hk : regimeLength (Reals.regime c x) ≤ c.N - 2) :
    regimeFloor c (Reals.regime c x) ≤ Reals.roundCode (Reals.codePoint c x) ∧
    Reals.roundCode (Reals.codePoint c x) ≤ regimeFloor c (Reals.regime c x + 1) := by
  obtain ⟨hlo, hhi⟩ := exponent_add_phi_bounds c hx
  obtain ⟨hclamp, hclamp'⟩ := clampRegime_of_regimeLength_le c hk
  have hrange := clampRegime_bounds c (Reals.regime c x)
  have hrange' := clampRegime_bounds c (Reals.regime c x + 1)
  have hnext := regimeFloor_succ hN (k := Reals.regime c x) (by omega) (by omega)
  have hlow : (regimeFloor c (Reals.regime c x) : ℝ) ≤ Reals.codePoint c x := by
    rw [codePoint_eq c hk]; exact le_add_of_nonneg_right (by positivity)
  have hhigh : Reals.codePoint c x ≤ regimeFloor c (Reals.regime c x + 1) := by
    rw [codePoint_eq c hk, ← hnext]
    push_cast
    gcongr
    exact mul_le_of_le_one_left (by positivity) hhi.le
  have hfloor0 : (0 : ℝ) ≤ regimeFloor c (Reals.regime c x) := by positivity
  constructor
  · simpa only [roundCode_natCast] using roundCode_mono hfloor0 hlow
  · simpa only [roundCode_natCast] using roundCode_mono (hfloor0.trans hlow) hhigh

/-- A run longer than N-2 bits saturates, at the end of the range of patterns that its sign selects (R101). -/
theorem roundPositive_toNat_of_saturated {x : ℝ} (hk : c.N - 2 < regimeLength (Reals.regime c x)) :
    (Reals.roundPositive c x).toNat = regimeFloor c (clampRegime c (Reals.regime c x)) := by
  obtain ⟨hmax, hmin⟩ := regimeFloor_extremes hN
  rw [Reals.roundPositive, ← regimeLength_eq, if_pos hk, (clampRegime_of_lt_regimeLength c hk).1]
  split_ifs
  · rw [positMaxPos_toNat hN, hmax]
  · rw [positMinPos_toNat hN, hmin]

/-- No bit of the rounded code point is lost in the pattern (R104). -/
theorem roundPositive_toNat_of_unsaturated {x : ℝ} (hx : 0 < x) (hk : regimeLength (Reals.regime c x) ≤ c.N - 2) :
    (Reals.roundPositive c x).toNat = Reals.roundCode (Reals.codePoint c x) := by
  have hlt := (roundCode_codePoint_bounds hN hx hk).2.trans_lt (regimeFloor_lt hN _)
  rw [Reals.roundPositive, ← regimeLength_eq, if_neg (not_lt.2 hk), BitVec.toNat_ofNat,
    Nat.mod_eq_of_lt (hlt.trans (Nat.pow_lt_pow_right one_lt_two (by omega)))]

/-- The magnitude result lies between the least patterns of the regime and of the next one, cut to the range. -/
theorem roundPositive_regime_bounds {x : ℝ} (hx : 0 < x) :
    regimeFloor c (clampRegime c (Reals.regime c x)) ≤ (Reals.roundPositive c x).toNat ∧
    (Reals.roundPositive c x).toNat ≤ regimeFloor c (clampRegime c (Reals.regime c x + 1)) := by
  rcases lt_or_ge (c.N - 2) (regimeLength (Reals.regime c x)) with hk | hk
  · rw [roundPositive_toNat_of_saturated hN hk, (clampRegime_of_lt_regimeLength c hk).2]
    exact ⟨le_rfl, le_rfl⟩
  · obtain ⟨hclamp, hclamp'⟩ := clampRegime_of_regimeLength_le c hk
    rw [roundPositive_toNat_of_unsaturated hN hx hk, hclamp, hclamp']
    exact roundCode_codePoint_bounds hN hx hk

/-- `1 <= mag <= MAXPOS` (R104). -/
theorem roundPositive_range {x : ℝ} (hx : 0 < x) :
    0 < (Reals.roundPositive c x).toNat ∧ (Reals.roundPositive c x).toNat < 2 ^ (c.N - 1) := by
  obtain ⟨hlo, hhi⟩ := roundPositive_regime_bounds hN hx
  exact ⟨(regimeFloor_pos hN _).trans_le hlo, hhi.trans_lt (regimeFloor_lt hN _)⟩

theorem roundPositive_ne_positNaR {x : ℝ} (hx : 0 < x) : Reals.roundPositive c x ≠ positNaR c := fun h => by
  have hlt := (roundPositive_range hN hx).2
  rw [h, positNaR_toNat c (by omega)] at hlt
  exact hlt.false

/-- R106 (3) for positive reals: the regime decides first, and in one regime the code point does. -/
theorem roundPositive_mono {x y : ℝ} (hx : 0 < x) (hxy : x ≤ y) :
    (Reals.roundPositive c x).toNat ≤ (Reals.roundPositive c y).toNat := by
  have hy : 0 < y := hx.trans_le hxy
  rcases (regime_mono c hx hxy).lt_or_eq with hk | hk
  · calc (Reals.roundPositive c x).toNat
        ≤ regimeFloor c (clampRegime c (Reals.regime c x + 1)) := (roundPositive_regime_bounds hN hx).2
      _ ≤ regimeFloor c (clampRegime c (Reals.regime c y)) := regimeFloor_clampRegime_mono hN hk
      _ ≤ (Reals.roundPositive c y).toNat := (roundPositive_regime_bounds hN hy).1
  rcases lt_or_ge (c.N - 2) (regimeLength (Reals.regime c x)) with hlen | hlen
  · rw [roundPositive_toNat_of_saturated hN hlen, roundPositive_toNat_of_saturated hN (hk ▸ hlen), hk]
  · obtain ⟨hfield, -⟩ := exponent_add_phi_bounds c hx
    have hcode : 0 ≤ Reals.codePoint c x := by rw [codePoint_eq c hlen]; positivity
    rw [roundPositive_toNat_of_unsaturated hN hx hlen, roundPositive_toNat_of_unsaturated hN hy (hk ▸ hlen)]
    exact roundCode_mono hcode (codePoint_mono_of_regime_eq c hx hxy hk)

/-! ### Posit values round to themselves (R87, R106) -/

/-- The magnitude of a pattern's value rounds to its magnitude pattern: packing inverts decoding. -/
theorem roundPositive_valueMagnitude (p : BitVec c.N) (h0 : p ≠ positZero c) (h1 : p ≠ positNaR c) :
    Reals.roundPositive c (valueMagnitude c p) = magnitude c p := by
  have hpack := pack_eq c false (scaleOf c p) { len := fractionLength c p, val := fraction c p } false 0
    (valueMagnitude c p) (by omega) (fraction_lt c p) le_rfl one_pos (by simp) (by simp)
    (by rw [valueMagnitude, if_neg h0, add_zero])
  have hfields := packMagnitude_of_fields c p hN h0 h1 0
  rw [add_zero, pow_zero, mul_one] at hfields
  rw [pack, scaleRegime_scaleOf, scaleExponent_scaleOf, hfields] at hpack
  exact hpack.symm

/-- R106 (4). -/
theorem positRound_realValue {p : BitVec c.N} {x : ℝ} (hx : Reals.value c p = some x) : Reals.positRound c x = p := by
  have h1 : p ≠ positNaR c := ne_positNaR_of_realValue c hx
  by_cases h0 : p = positZero c
  · rw [h0, realValue_positZero c hN, Option.some.injEq] at hx
    rw [← hx, Reals.positRound, if_pos rfl, h0]
  rw [realValue_eq_signed_valueMagnitude c p h1, Option.some.injEq] at hx
  rw [← hx, positRound_of_sign c p.msb _ (valueMagnitude_pos c p h0), roundPositive_valueMagnitude hN p h0 h1,
    ← signBit_eq_msb, magnitude_signed]

/-! ### `posit_round` of any real (R105) -/

omit hN

@[simp] theorem positRound_zero : Reals.positRound c 0 = positZero c := if_pos rfl

theorem positRound_of_pos {x : ℝ} (hx : 0 < x) : Reals.positRound c x = Reals.roundPositive c x := by
  simpa using positRound_of_sign c false x hx

/-- R106 (2). -/
theorem positRound_neg (x : ℝ) : Reals.positRound c (-x) = -Reals.positRound c x := by
  rcases lt_trichotomy x 0 with hx | rfl | hx
  · have hneg : Reals.positRound c x = -Reals.roundPositive c (-x) := by
      simpa using positRound_of_sign c true (-x) (neg_pos.2 hx)
    rw [hneg, neg_neg, positRound_of_pos (neg_pos.2 hx)]
  · simp [positZero]
  · simpa [positRound_of_pos hx] using positRound_of_sign c true x hx

include hN

theorem positRound_ne_positNaR (x : ℝ) : Reals.positRound c x ≠ positNaR c := by
  rcases lt_trichotomy x 0 with hx | rfl | hx
  · rw [← neg_neg x, positRound_neg, positRound_of_pos (neg_pos.2 hx)]
    exact neg_ne_positNaR c (roundPositive_ne_positNaR hN (neg_pos.2 hx))
  · rw [positRound_zero]; exact (positNaR_ne_positZero hN).symm
  · rw [positRound_of_pos hx]; exact roundPositive_ne_positNaR hN hx

theorem positRound_toInt_of_pos {x : ℝ} (hx : 0 < x) :
    (Reals.positRound c x).toInt = (Reals.roundPositive c x).toNat := by
  have hlt := (roundPositive_range hN hx).2
  rw [positRound_of_pos hx]
  exact BitVec.toInt_eq_toNat_of_lt (by have := two_pow_width hN; omega)

theorem positRound_toInt_neg (x : ℝ) : (Reals.positRound c (-x)).toInt = -(Reals.positRound c x).toInt := by
  have h1 := positRound_ne_positNaR hN x
  rw [positNaR_eq_intMin] at h1
  rw [positRound_neg, BitVec.toInt_neg_of_ne_intMin h1]

/-- A positive real rounds to a positive pattern. -/
theorem positRound_toInt_pos {x : ℝ} (hx : 0 < x) : 0 < (Reals.positRound c x).toInt := by
  rw [positRound_toInt_of_pos hN hx]; exact_mod_cast (roundPositive_range hN hx).1

theorem positRound_toInt_nonneg {x : ℝ} (hx : 0 ≤ x) : 0 ≤ (Reals.positRound c x).toInt := by
  rcases hx.eq_or_lt with rfl | hx
  · simp [positZero]
  · exact (positRound_toInt_pos hN hx).le

/-- Only 0 rounds to ZERO. -/
theorem positRound_eq_positZero_iff (x : ℝ) : Reals.positRound c x = positZero c ↔ x = 0 := by
  refine ⟨fun h => ?_, fun h => by rw [h, positRound_zero]⟩
  have hint : (Reals.positRound c x).toInt = 0 := by simp [h, positZero]
  rcases lt_trichotomy x 0 with hx | hx | hx
  · have := positRound_toInt_pos hN (neg_pos.2 hx)
    rw [positRound_toInt_neg hN] at this
    omega
  · exact hx
  · have := positRound_toInt_pos hN hx
    omega

theorem positRound_toInt_mono_of_pos {x y : ℝ} (hx : 0 < x) (hxy : x ≤ y) :
    (Reals.positRound c x).toInt ≤ (Reals.positRound c y).toInt := by
  rw [positRound_toInt_of_pos hN hx, positRound_toInt_of_pos hN (hx.trans_le hxy)]
  exact_mod_cast roundPositive_mono hN hx hxy

/-- R106 (3). -/
theorem positRound_toInt_mono {x y : ℝ} (hxy : x ≤ y) :
    (Reals.positRound c x).toInt ≤ (Reals.positRound c y).toInt := by
  rcases lt_or_ge 0 x with hx | hx
  · exact positRound_toInt_mono_of_pos hN hx hxy
  rcases lt_or_ge y 0 with hy | hy
  · have hneg := positRound_toInt_mono_of_pos hN (neg_pos.2 hy) (neg_le_neg hxy)
    rw [positRound_toInt_neg hN, positRound_toInt_neg hN] at hneg
    omega
  · have hneg := positRound_toInt_nonneg hN (neg_nonneg.2 hx)
    have hnonneg := positRound_toInt_nonneg hN hy
    rw [positRound_toInt_neg hN] at hneg
    omega

/-- R106 (5) at the upper end: MAXPOS is the greatest pattern as a signed integer. -/
theorem positRound_of_ge_maxPos {x M : ℝ} (hM : Reals.value c (positMaxPos c) = some M) (hx : M ≤ x) :
    Reals.positRound c x = positMaxPos c := by
  have hMpos : 0 < M := by
    rw [realValue_positMaxPos c hN, Option.some.injEq] at hM
    rw [← hM, Config.useed]; positivity
  have hxpos : 0 < x := hMpos.trans_le hx
  have hge := roundPositive_mono hN hMpos hx
  have hlt := (roundPositive_range hN hxpos).2
  rw [← positRound_of_pos hMpos, positRound_realValue hN hM, positMaxPos_toNat hN] at hge
  rw [positRound_of_pos hxpos]
  exact BitVec.eq_of_toNat_eq (by rw [positMaxPos_toNat hN]; omega)

/-- R106 (5) at the lower end: MINPOS is the least positive pattern. -/
theorem positRound_of_lt_minPos {x m : ℝ} (hm : Reals.value c (positMinPos c) = some m) (hx : 0 < x) (hxm : x < m) :
    Reals.positRound c x = positMinPos c := by
  have hle := roundPositive_mono hN hx hxm.le
  have hpos := (roundPositive_range hN hx).1
  rw [← positRound_of_pos (hx.trans hxm), positRound_realValue hN hm, positMinPos_toNat hN] at hle
  rw [positRound_of_pos hx]
  exact BitVec.eq_of_toNat_eq (by rw [positMinPos_toNat hN]; omega)

end

/-- Settles O26: `posit_round` of a positive real stays from 1 to MAXPOS and is monotone, its regime's interval of
patterns first and the code point in it next; negation carries both to all reals, and packing inverts decoding. -/
theorem positRoundHasItsProperties : Obligations.PositRoundHasItsProperties := by
  intro c hc
  have hN : 3 ≤ c.N := hc.1
  exact ⟨fun x => ⟨positRound_ne_positNaR hN x, positRound_eq_positZero_iff hN x⟩, positRound_neg,
    fun _ _ => positRound_toInt_mono hN, fun _ _ => positRound_realValue hN, fun _ _ => positRound_of_ge_maxPos hN,
    fun _ _ => positRound_of_lt_minPos hN⟩

/-! ### PENC (R108) -/

/-- Packing 64 fraction bits is `posit_round` of any real that begins with them: the real itself with sticky 0, and with
sticky 1 one that lies `d` of the last bit beyond it. -/
theorem pack_frac64_eq_positRound (c : Config) (hN : c.N ≤ 32) (hN' : 3 ≤ c.N) (sgn : Bool) (scale : Int)
    (frac : QuireWord) (stk : Bool) {d x : ℝ} (h0 : 0 ≤ d) (h1 : d < 1) (hd : stk = true ↔ d ≠ 0)
    (hx : x = (2 : ℝ) ^ scale * (1 + ((frac.toNat : ℝ) + d) / 2 ^ 64)) :
    pack c sgn scale { len := 64, val := frac.toNat } stk = Reals.positRound c (if sgn then -x else x) := by
  have hpos : 0 < x := by
    have := zpow_pos (two_pos (α := ℝ)) scale
    rw [hx]; positivity
  rw [positRound_of_sign c sgn x hpos]
  exact pack_eq c sgn scale _ stk d x (by omega) frac.isLt h0 h1 hd (fun _ => by simp only; omega) hx

/-- Settles O27: with sticky 1 the real lies `(y - base) / 2^(scale-64)` of the last fraction bit beyond the bits of
`frac`, a part strictly between 0 and 1, and the packer looks at no bit past those and the sticky bit. -/
theorem pencRoundsTheRealItsOperandsDenote : Obligations.PencRoundsTheRealItsOperandsDenote := by
  refine ⟨fun cmd => (opcodesSelectTheCommandAndItsFields cmd).2.1, fun s sgn scale frac hc base hbase => ⟨?_, ?_⟩⟩
  · have hexact : base = 2 ^ scale.toInt * (1 + ((frac.toNat : ℝ) + 0) / 2 ^ 64) := by rw [hbase, add_zero]
    rw [exec_penc, pack_frac64_eq_positRound s.cfg hc.2.1 hc.1 sgn _ frac false le_rfl one_pos (by simp) hexact]
  · intro y hlo hhi
    have hulp := zpow_pos (two_pos (α := ℝ)) (scale.toInt - 64)
    have hscale : (2 : ℝ) ^ scale.toInt = 2 ^ (scale.toInt - 64) * 2 ^ 64 := by
      rw [← zpow_natCast, ← zpow_add₀ two_ne_zero]; simp
    have hd0 : 0 < (y - base) / 2 ^ (scale.toInt - 64) := div_pos (sub_pos.2 hlo) hulp
    have hd1 : (y - base) / 2 ^ (scale.toInt - 64) < 1 := by rw [div_lt_one hulp]; linarith
    have hy : y = 2 ^ scale.toInt * (1 + ((frac.toNat : ℝ) + (y - base) / 2 ^ (scale.toInt - 64)) / 2 ^ 64) := by
      rw [hbase, hscale]; field_simp; ring
    rw [exec_penc, pack_frac64_eq_positRound s.cfg hc.2.1 hc.1 sgn _ frac true hd0.le hd1 (by simp [hd0.ne']) hy]

end Sys2Proof.Machine
end

section
/-! PROOFS. Posit arithmetic (spec/42_arith.md R120 to R127). A finite result is the machine's rounding of an exact
dyadic, quotient or root, which is `posit_round` of the real it stands for; NaR operands, the ZERO divisor and the
negative radicand come before it. -/

namespace Sys2Proof.Machine

open Sys2Proof

section
variable (c : Config)

/-! ### Rounding a dyadic, and ZERO operands (R105, R121) -/

/-- `posit_round` of any dyadic rational is `posit_round` of the real it stands for. -/
theorem positRound_eq_ofDyad (hN : 3 ≤ c.N) (d : Dyad) : positRound c d = Reals.positRound c (Reals.ofDyad d) := by
  by_cases h : d.num = 0
  · rw [(ofDyad_eq_zero_iff d).2 h, positRound_zero, positRound, if_pos h]
  · exact positRound_eq_of_ne c d (by omega) h

theorem isZero_iff (p : BitVec c.N) : isZero c p = true ↔ p = positZero c := beq_iff_eq

/-- Only ZERO has the real value 0 (R26). -/
theorem ofDyad_value_eq_zero_iff {p : BitVec c.N} {d : Dyad} (h : value c p = some d) :
    Reals.ofDyad d = 0 ↔ p = positZero c :=
  (ofDyad_eq_zero_iff d).trans (value_num_eq_zero_iff c p h)

theorem eq_positZero_of_realValue_zero {p : BitVec c.N} (h : Reals.value c p = some 0) : p = positZero c := by
  obtain ⟨d, hd, hzero⟩ := exists_value_of_real c p h
  exact (ofDyad_value_eq_zero_iff c hd).1 hzero

/-! ### Negation (R122) -/

theorem neg_positZero : -positZero c = positZero c := by simp [positZero]

theorem neg_positNaR : -positNaR c = positNaR c := by rw [positNaR_eq_intMin, BitVec.neg_intMin]

/-! ### The results of finite operands (R123 to R127) -/

section
variable {c} (hN : 3 ≤ c.N) {a b : BitVec c.N} {x y : ℝ} (hx : Reals.value c a = some x)
include hN hx

theorem positAdd_eq_positRound (hy : Reals.value c b = some y) : positAdd c a b = Reals.positRound c (x + y) := by
  obtain ⟨u, hu, rfl⟩ := exists_value_of_real c a hx
  obtain ⟨v, hv, rfl⟩ := exists_value_of_real c b hy
  rw [positAdd, onValues_some c _ hu hv, positRound_eq_ofDyad c hN, ofDyad_add]

theorem positSub_eq_positRound (hy : Reals.value c b = some y) : positSub c a b = Reals.positRound c (x - y) := by
  obtain ⟨u, hu, rfl⟩ := exists_value_of_real c a hx
  obtain ⟨v, hv, rfl⟩ := exists_value_of_real c b hy
  rw [positSub, onValues_some c _ hu hv, positRound_eq_ofDyad c hN, ofDyad_sub]

theorem positMul_eq_positRound (hy : Reals.value c b = some y) : positMul c a b = Reals.positRound c (x * y) := by
  obtain ⟨u, hu, rfl⟩ := exists_value_of_real c a hx
  obtain ⟨v, hv, rfl⟩ := exists_value_of_real c b hy
  rw [positMul, onValues_some c _ hu hv]
  split_ifs with hzero
  · have hprod : Reals.ofDyad u * Reals.ofDyad v = 0 := by
      rw [mul_eq_zero, ofDyad_value_eq_zero_iff c hu, ofDyad_value_eq_zero_iff c hv]
      simpa [isZero_iff] using hzero
    rw [hprod, positRound_zero]
  · rw [positRound_eq_ofDyad c hN, ofDyad_mul]

theorem positDiv_eq_positRound (hy : Reals.value c b = some y) (hy0 : y ≠ 0) :
    positDiv c a b = Reals.positRound c (x / y) := by
  obtain ⟨u, hu, rfl⟩ := exists_value_of_real c a hx
  obtain ⟨v, hv, rfl⟩ := exists_value_of_real c b hy
  have hb : b ≠ positZero c := mt (ofDyad_value_eq_zero_iff c hv).2 hy0
  have hv0 : v.num ≠ 0 := mt (ofDyad_eq_zero_iff v).2 hy0
  rw [positDiv, onValues_some c _ hu hv, if_neg (mt (isZero_iff c b).1 hb)]
  split_ifs with hzero
  · rw [(ofDyad_value_eq_zero_iff c hu).2 ((isZero_iff c a).1 hzero), zero_div, positRound_zero]
  · exact roundQuotient_eq c u v (by omega) (mt (value_num_eq_zero_iff c a hu).1 (mt (isZero_iff c a).2 hzero)) hv0

theorem positSqrt_eq_positRound (hx0 : 0 ≤ x) : positSqrt c a = Reals.positRound c (Real.sqrt x) := by
  obtain ⟨u, hu, rfl⟩ := exists_value_of_real c a hx
  have hsign : ¬ u.num < 0 := mt (ofDyad_neg_iff u).2 hx0.not_gt
  rw [positSqrt, if_neg (mt (value_num_neg_iff c hu).2 hsign), onValue_some c _ hu]
  split_ifs with hzero
  · rw [(ofDyad_value_eq_zero_iff c hu).2 ((isZero_iff c a).1 hzero), Real.sqrt_zero, positRound_zero]
  · have hu0 : u.num ≠ 0 := mt (value_num_eq_zero_iff c a hu).1 (mt (isZero_iff c a).2 hzero)
    exact roundSqrt_eq c u (by omega) (by omega)

end

/-! ### NaR operands, the ZERO divisor and the negative radicand (R123 to R127) -/

section
variable {c} {a b : BitVec c.N} (hnar : a = positNaR c ∨ b = positNaR c)
include hnar

theorem positAdd_of_nar : positAdd c a b = positNaR c := onValues_nar c _ hnar

theorem positSub_of_nar : positSub c a b = positNaR c := onValues_nar c _ hnar

theorem positMul_of_nar : positMul c a b = positNaR c := onValues_nar c _ hnar

theorem positDiv_of_nar : positDiv c a b = positNaR c := onValues_nar c _ hnar

end

theorem positDiv_of_zero_divisor (a : BitVec c.N) : positDiv c a (positZero c) = positNaR c := by
  rw [positDiv, onValues]
  split
  · exact if_pos ((isZero_iff c _).2 rfl)
  · rfl

/-- The sign bit of a negative operand gives NaR. -/
theorem positSqrt_of_neg {a : BitVec c.N} {x : ℝ} (hx : Reals.value c a = some x) (hneg : x < 0) :
    positSqrt c a = positNaR c := by
  obtain ⟨u, hu, rfl⟩ := exists_value_of_real c a hx
  rw [positSqrt, if_pos ((value_num_neg_iff c hu).1 ((ofDyad_neg_iff u).1 hneg))]

theorem positSqrt_positNaR : positSqrt c (positNaR c) = positNaR c := by
  rw [positSqrt, onValue_nar, ite_self]

end

/-- Settles O30: negation keeps the magnitude pattern and flips the sign, except in ZERO and NaR. -/
theorem pnegNegatesPatternAndValue : Obligations.PnegNegatesPatternAndValue := by
  refine ⟨fun cmd => ?_, fun s a _ => ⟨exec_pneg s a, fun _ => realValue_neg s.cfg, neg_positZero s.cfg,
    neg_positNaR s.cfg, fun _ => eq_positZero_of_realValue_zero s.cfg⟩⟩
  obtain ⟨-, -, hdecode, -⟩ := opcodesSelectTheCommandAndItsFields cmd
  exact hdecode

/-- Settles O31: the exact sum of the dyadic values is rounded once. -/
theorem paddRoundsTheExactSum : Obligations.PaddRoundsTheExactSum := by
  refine ⟨fun cmd => ?_, fun s a b hc => ⟨fun x y hx hy => ?_, fun hnar => ?_⟩⟩
  · obtain ⟨-, -, -, hdecode, -⟩ := opcodesSelectTheCommandAndItsFields cmd
    exact hdecode
  · rw [exec_padd, operandPosit, operandPosit, positAdd_eq_positRound hc.1 hx hy]
  · rw [exec_padd, operandPosit, operandPosit, positAdd_of_nar hnar]

/-- Settles O32: the exact difference of the dyadic values is rounded once. -/
theorem psubRoundsTheExactDifference : Obligations.PsubRoundsTheExactDifference := by
  refine ⟨fun cmd => ?_, fun s a b hc => ⟨fun x y hx hy => ?_, fun hnar => ?_⟩⟩
  · obtain ⟨-, -, -, -, hdecode, -⟩ := opcodesSelectTheCommandAndItsFields cmd
    exact hdecode
  · rw [exec_psub, operandPosit, operandPosit, positSub_eq_positRound hc.1 hx hy]
  · rw [exec_psub, operandPosit, operandPosit, positSub_of_nar hnar]

/-- Settles O33: the exact product of the dyadic values is rounded once, and the ZERO rule agrees with it. -/
theorem pmulRoundsTheExactProduct : Obligations.PmulRoundsTheExactProduct := by
  refine ⟨fun cmd => ?_, fun s a b hc => ⟨fun x y hx hy => ?_, fun hnar => ?_⟩⟩
  · obtain ⟨-, -, -, -, -, hdecode, -⟩ := opcodesSelectTheCommandAndItsFields cmd
    exact hdecode
  · rw [exec_pmul, operandPosit, operandPosit, positMul_eq_positRound hc.1 hx hy]
  · rw [exec_pmul, operandPosit, operandPosit, positMul_of_nar hnar]

/-- Settles O34: the quotient is cut to more than N bits and the remainder feeds the sticky bit; NaR comes first, then
the ZERO divisor. -/
theorem pdivRoundsTheExactQuotient : Obligations.PdivRoundsTheExactQuotient := by
  refine ⟨fun cmd => ?_, fun s a b hc => ⟨fun x y hx hy hy0 => ?_, fun hnar => ?_⟩⟩
  · obtain ⟨-, -, -, -, -, -, hdecode, -⟩ := opcodesSelectTheCommandAndItsFields cmd
    exact hdecode
  · rw [exec_pdiv, operandPosit, operandPosit, positDiv_eq_positRound hc.1 hx hy hy0]
  · rw [exec_pdiv, operandPosit, operandPosit]
    rcases or_assoc.2 hnar with hnar | hzero
    · rw [positDiv_of_nar hnar]
    · rw [hzero, positDiv_of_zero_divisor]

/-- Settles O35: the root is cut to more than N bits and its rest feeds the sticky bit; the sign bit alone tells the
negative operands. -/
theorem psqrtRoundsTheExactRoot : Obligations.PsqrtRoundsTheExactRoot := by
  refine ⟨fun cmd => ?_, fun s a hc => ⟨fun x hx => ⟨fun hx0 => ?_, fun hneg => ?_⟩, fun hnar => ?_⟩⟩
  · obtain ⟨-, -, -, -, -, -, -, hdecode, -⟩ := opcodesSelectTheCommandAndItsFields cmd
    exact hdecode
  · rw [exec_psqrt, operandPosit, positSqrt_eq_positRound hc.1 hx hx0]
  · rw [exec_psqrt, operandPosit, positSqrt_of_neg s.cfg hx hneg]
  · rw [exec_psqrt, operandPosit, hnar, positSqrt_positNaR]

end Sys2Proof.Machine
end

section
/-! PROOFS. Rounding to an integer (spec/42_arith.md R128 to R130). An integer less than 1 away from a posit's value is
0 or 1 below the scale 0, and from there on lies in the range of the value's scale, both ends included, where it is a
multiple of the last fraction bit; so it is a posit's value itself, and rounding it is exact. -/

namespace Sys2Proof.Machine

open Sys2Proof

section
variable {c : Config}

/-! ### Patterns made of given fields (R81 to R86) -/

/-- A run of N-2 bits or fewer leaves room for the terminator, so that the next regime is one of the word's too. -/
theorem bounds_of_regimeLength_le {k : Int} (hk : regimeLength k ≤ c.N - 2) :
    -(c.N - 2 : Nat) ≤ k ∧ k + 1 ≤ (c.N - 2 : Nat) := by
  rw [regimeLength] at hk
  split_ifs at hk <;> omega

/-- A tail that holds the whole exponent decodes to its two parts (R84, R85). -/
theorem exponent_fraction_of_tailBits {q : BitVec c.N} {e nf f : Nat} (hlen : tailLength c q = c.ES + nf)
    (htail : tailBits c q = e * 2 ^ nf + f) (hf : f < 2 ^ nf) :
    exponent c q = e ∧ fractionLength c q = nf ∧ fraction c q = f := by
  have hnf : fractionLength c q = nf := by rw [fractionLength, hlen, Nat.add_sub_cancel_left]
  refine ⟨?_, hnf, by rw [fraction, htail, hnf, Nat.mul_add_mod_of_lt hf]⟩
  rw [exponent, hlen, if_pos (Nat.le_add_right _ _), htail, Nat.add_sub_cancel_left, mul_comm,
    Nat.mul_add_div (by positivity), Nat.div_eq_of_lt hf, add_zero]

variable (hN : 3 ≤ c.N)
include hN

/-- A pattern from 1 to MAXPOS is its own magnitude pattern, and is neither ZERO nor NaR. -/
theorem not_special_of_toNat_range {q : BitVec c.N} (hpos : 0 < q.toNat) (hlt : q.toNat < 2 ^ (c.N - 1)) :
    q ≠ positZero c ∧ q ≠ positNaR c ∧ q.msb = false ∧ magnitude c q = q := by
  have hmsb : q.msb = false := BitVec.msb_eq_false_iff_two_mul_lt.2 (by have := two_pow_width hN; omega)
  refine ⟨?_, ?_, hmsb, by simp [magnitude, signBit_eq_msb, hmsb]⟩
  · rintro rfl; simp [positZero] at hpos
  · rintro rfl; simp [positNaR_toNat c (show 1 ≤ c.N by omega)] at hlt

/-- A magnitude pattern in the interval of the regime `k` decodes to `k` and to the tail it is above the least one. -/
theorem fields_of_magnitude_eq_regimeFloor_add {q : BitVec c.N} (h0 : q ≠ positZero c) (h1 : q ≠ positNaR c)
    {k : Int} (hk : regimeLength k ≤ c.N - 2) {t : Nat} (ht : t < 2 ^ (c.N - 2 - regimeLength k))
    (h : (magnitude c q).toNat = regimeFloor c k + t) : regimeValue c q = k ∧ tailBits c q = t := by
  obtain ⟨hlo, hhi⟩ := bounds_of_regimeLength_le hk
  have hrange := regimeValue_range c q hN h0 h1
  have hsplit := magnitude_eq_regimeFloor_add_tailBits c q hN h0 h1
  have hnext := regimeFloor_succ hN hlo (by omega)
  have hkq : regimeValue c q = k := by
    rcases lt_trichotomy (regimeValue c q) k with hlt | heq | hgt
    · have := magnitude_lt_regimeFloor c q hN h0 h1 hlt (by omega)
      omega
    · exact heq
    · have := regimeFloor_mono hN (by omega) hgt (by omega)
      omega
  rw [hkq] at hsplit
  exact ⟨hkq, by omega⟩

/-- Every regime, exponent and fraction that fit the word are the fields of a posit. -/
theorem exists_realValue_of_fields {k : Int} {e nf f : Nat} (hlen : regimeLength k + (c.ES + nf) = c.N - 2)
    (he : e < 2 ^ c.ES) (hf : f < 2 ^ nf) :
    ∃ q, Reals.value c q = some ((2 : ℝ) ^ (k * 2 ^ c.ES + e) * (1 + (f : ℝ) / 2 ^ nf)) := by
  have hk : regimeLength k ≤ c.N - 2 := by omega
  have hrem : c.N - 2 - regimeLength k = c.ES + nf := by omega
  have htail : e * 2 ^ nf + f < 2 ^ (c.N - 2 - regimeLength k) := by
    rw [hrem, pow_add]
    calc e * 2 ^ nf + f < (e + 1) * 2 ^ nf := by rw [add_one_mul]; omega
      _ ≤ 2 ^ c.ES * 2 ^ nf := Nat.mul_le_mul_right _ he
  obtain ⟨hlo, hhi⟩ := bounds_of_regimeLength_le hk
  have hnext := regimeFloor_succ hN hlo hhi
  have hpos := regimeFloor_pos hN k
  have hlt := regimeFloor_lt hN (k + 1)
  have hword := two_pow_width hN
  set q := BitVec.ofNat c.N (regimeFloor c k + (e * 2 ^ nf + f)) with hq
  have hqn : q.toNat = regimeFloor c k + (e * 2 ^ nf + f) := by
    rw [hq, BitVec.toNat_ofNat, Nat.mod_eq_of_lt (by omega)]
  obtain ⟨h0, h1, hmsb, hmag⟩ := not_special_of_toNat_range hN (show 0 < q.toNat by omega) (by omega)
  obtain ⟨hkq, htq⟩ := fields_of_magnitude_eq_regimeFloor_add hN h0 h1 hk htail (by rw [hmag, hqn])
  have htlq : tailLength c q = c.ES + nf := by
    rw [tailLength_eq c q hN, ← regimeLength_regimeValue c q hN, hkq, hrem]
  obtain ⟨hexpq, hnfq, hfq⟩ := exponent_fraction_of_tailBits htlq htq hf
  refine ⟨q, ?_⟩
  rw [realValue_eq_signed_valueMagnitude c q h1, hmsb, valueMagnitude, if_neg h0, scaleOf, hkq, hexpq, hfq, hnfq,
    pow2_eq]
  simp

/-- The power of `useed` that begins a regime of the word is a posit's value. -/
theorem exists_realValue_useed_zpow {k : Int} (hk : k.natAbs ≤ c.N - 2) :
    ∃ q, Reals.value c q = some ((c.useed : ℝ) ^ k) := by
  have hlt := regimeFloor_lt hN k
  have hword := two_pow_width hN
  exact ⟨BitVec.ofNat c.N (regimeFloor c k), realValue_of_toNat_eq_regimeFloor c _ hN hk
    (by rw [BitVec.toNat_ofNat, Nat.mod_eq_of_lt (by omega)])⟩

/-- The same with the upper end of the scale's range, which the next exponent or the next regime begins with. -/
theorem exists_realValue_of_fields_le {k : Int} {e nf f : Nat} (hlen : regimeLength k + (c.ES + nf) = c.N - 2)
    (he : e < 2 ^ c.ES) (hf : f ≤ 2 ^ nf) :
    ∃ q, Reals.value c q = some ((2 : ℝ) ^ (k * 2 ^ c.ES + e) * (1 + (f : ℝ) / 2 ^ nf)) := by
  rcases hf.lt_or_eq with hf | rfl
  · exact exists_realValue_of_fields hN hlen he hf
  have hone : (1 : ℝ) + ((2 ^ nf : Nat) : ℝ) / 2 ^ nf = 2 := by push_cast; rw [div_self (by positivity)]; norm_num
  rw [hone, ← zpow_add_one₀ two_ne_zero]
  rcases (Nat.succ_le_of_lt he).lt_or_eq with he' | he'
  · obtain ⟨q, hq⟩ := exists_realValue_of_fields hN hlen he' (f := 0) (by positivity)
    refine ⟨q, hq.trans ?_⟩
    push_cast
    rw [zero_div, add_zero, mul_one, add_assoc]
  · obtain ⟨hlo, hhi⟩ := bounds_of_regimeLength_le (c := c) (k := k) (by omega)
    obtain ⟨q, hq⟩ := exists_realValue_useed_zpow hN (k := k + 1) (by omega)
    refine ⟨q, hq.trans ?_⟩
    have hunit : (2 : Int) ^ c.ES = e + 1 := by exact_mod_cast he'.symm
    have hexp : k * 2 ^ c.ES + (e : Int) + 1 = ((2 ^ c.ES : Nat) : Int) * (k + 1) := by
      push_cast; rw [hunit]; ring
    rw [hexp, zpow_mul, zpow_natCast, Config.useed, Nat.cast_pow, Nat.cast_ofNat]

/-! ### The integers next to a posit (R128 to R130) -/

omit hN in
/-- A positive value is the magnitude of its pattern. -/
theorem eq_valueMagnitude_of_pos {p : BitVec c.N} {x : ℝ} (hx : Reals.value c p = some x) (hpos : 0 < x) :
    p ≠ positZero c ∧ x = valueMagnitude c p := by
  rw [realValue_eq_signed_valueMagnitude c p (ne_positNaR_of_realValue c hx), Option.some.injEq] at hx
  have hnonneg := valueMagnitude_nonneg c p
  have hsign : x = valueMagnitude c p := by
    split_ifs at hx
    · linarith
    · exact hx.symm
  refine ⟨?_, hsign⟩
  rintro rfl
  rw [hsign, valueMagnitude_positZero] at hpos
  exact hpos.false

omit hN in
/-- A posit whose fraction ends at or above the units is an integer. -/
theorem valueMagnitude_eq_intCast {p : BitVec c.N} (h0 : p ≠ positZero c)
    (hs : (fractionLength c p : Int) ≤ scaleOf c p) : ∃ m : Int, valueMagnitude c p = m := by
  obtain ⟨j, hj⟩ := Int.le.dest hs
  refine ⟨2 ^ j * (2 ^ fractionLength c p + fraction c p), ?_⟩
  rw [valueMagnitude, if_neg h0, ← hj, zpow_add₀ two_ne_zero, zpow_natCast, zpow_natCast]
  push_cast
  field_simp

/-- An integer in the range of the scale of a posit whose fraction reaches below the units is a posit's value. -/
theorem exists_realValue_of_scale_range {p : BitVec c.N} {S : Nat} (hs : scaleOf c p = S)
    (hfrac : S < fractionLength c p) {m : Nat} (hm : m ≤ 2 ^ S) :
    ∃ q, Reals.value c q = some ((2 : ℝ) ^ S + m) := by
  have hrun := regimeLength_regimeValue c p hN
  have hrem := tailLength_eq c p hN
  have hpow : 2 ^ fractionLength c p = 2 ^ S * 2 ^ (fractionLength c p - S) := (pow_mul_pow_sub 2 hfrac.le).symm
  obtain ⟨q, hq⟩ := exists_realValue_of_fields_le hN (k := regimeValue c p) (e := exponent c p)
    (nf := fractionLength c p) (f := m * 2 ^ (fractionLength c p - S))
    (by rw [fractionLength] at hfrac ⊢; omega) (exponent_lt c p) (by rw [hpow]; exact Nat.mul_le_mul_right _ hm)
  refine ⟨q, hq.trans ?_⟩
  rw [← pow2_eq, ← scaleOf, hs, zpow_natCast]
  have hpow' : (2 : ℝ) ^ fractionLength c p = 2 ^ S * 2 ^ (fractionLength c p - S) := by exact_mod_cast hpow
  rw [hpow']
  push_cast
  field_simp

/-- Next to a real strictly between 0 and 1 there are only 0 and 1, which are posits' values. -/
theorem exists_realValue_of_int_near_unit {x : ℝ} (hpos : 0 < x) (hx1 : x < 1) {n : Int} (hn : |x - n| < 1) :
    ∃ q, Reals.value c q = some (n : ℝ) := by
  obtain ⟨hlo, hhi⟩ := abs_lt.1 hn
  have hn1 : -1 < n := by exact_mod_cast (show (-1 : ℝ) < n by linarith)
  have hn2 : n < 2 := by exact_mod_cast (show (n : ℝ) < 2 by linarith)
  obtain rfl | rfl : n = 0 ∨ n = 1 := by omega
  · exact ⟨positZero c, by simpa using realValue_positZero c hN⟩
  · exact ⟨positOne c, by simpa using realValue_positOne c hN⟩

/-- For a positive posit: below the scale 0, from there on with an integer value, or with a fraction below the units. -/
theorem exists_realValue_of_int_near_pos {p : BitVec c.N} {x : ℝ} (hx : Reals.value c p = some x) (hpos : 0 < x)
    {n : Int} (hn : |x - n| < 1) : ∃ q, Reals.value c q = some (n : ℝ) := by
  obtain ⟨h0, hmag⟩ := eq_valueMagnitude_of_pos hx hpos
  obtain ⟨hlo, hhi⟩ := valueMagnitude_scale_bounds c p h0
  rw [← hmag] at hlo hhi
  obtain ⟨hn1, hn2⟩ := abs_lt.1 hn
  rcases lt_or_ge (scaleOf c p) 0 with hs | hs
  · have hx1 : x < 1 := hhi.trans_le (zpow_le_one_of_nonpos₀ one_le_two (by omega))
    exact exists_realValue_of_int_near_unit hN hpos hx1 hn
  obtain ⟨S, hS⟩ := Int.eq_ofNat_of_zero_le hs
  rcases le_or_gt (fractionLength c p) S with hfrac | hfrac
  · obtain ⟨m, hm⟩ := valueMagnitude_eq_intCast h0 (show (fractionLength c p : Int) ≤ scaleOf c p by omega)
    rw [hmag, hm] at hn
    have hmn : m = n := sub_eq_zero.1 (Int.abs_lt_one_iff.1 (by exact_mod_cast hn))
    exact ⟨p, by rw [hx, hmag, hm, hmn]⟩
  · rw [hS, zpow_natCast] at hlo
    rw [hS, zpow_add_one₀ two_ne_zero, zpow_natCast] at hhi
    have hn1 : (2 : Int) ^ S < n + 1 := by exact_mod_cast (show (2 : ℝ) ^ S < n + 1 by linarith)
    have hn2 : n < 2 ^ S * 2 + 1 := by exact_mod_cast (show (n : ℝ) < 2 ^ S * 2 + 1 by linarith)
    obtain ⟨m, hm⟩ := Int.le.dest (Int.lt_add_one_iff.1 hn1)
    obtain ⟨q, hq⟩ := exists_realValue_of_scale_range hN hS hfrac (m := m) (by zify; omega)
    exact ⟨q, by rw [hq, ← hm]; push_cast; rfl⟩

/-- An integer less than 1 away from a posit's value is a posit's value. -/
theorem exists_realValue_of_int_near {p : BitVec c.N} {x : ℝ} (hx : Reals.value c p = some x) {n : Int}
    (hn : |x - n| < 1) : ∃ q, Reals.value c q = some (n : ℝ) := by
  rcases lt_trichotomy x 0 with hneg | rfl | hpos
  · obtain ⟨q, hq⟩ := exists_realValue_of_int_near_pos hN (realValue_neg c hx) (neg_pos.2 hneg) (n := -n)
      (by rw [Int.cast_neg, ← neg_sub', abs_neg]; exact hn)
    exact ⟨-q, by rw [realValue_neg c hq, Int.cast_neg, neg_neg]⟩
  · obtain rfl : n = 0 := by
      rw [zero_sub, abs_neg] at hn
      exact Int.abs_lt_one_iff.1 (by exact_mod_cast hn)
    exact ⟨p, by simpa using hx⟩
  · exact exists_realValue_of_int_near_pos hN hx hpos hn

/-- Rounding such an integer to a posit is exact. -/
theorem realValue_positRound_of_int_near {p : BitVec c.N} {x : ℝ} (hx : Reals.value c p = some x) {n : Int}
    (hn : |x - n| < 1) : Reals.value c (Reals.positRound c n) = some (n : ℝ) := by
  obtain ⟨q, hq⟩ := exists_realValue_of_int_near hN hx hn
  rw [positRound_realValue hN hq, hq]

/-! ### The results of PRND, PFLR and PCEIL (R128 to R130) -/

theorem positFloor_eq_positRound {a : BitVec c.N} {x : ℝ} (hx : Reals.value c a = some x) :
    positFloor c a = Reals.positRound c (⌊x⌋ : Int) := by
  obtain ⟨u, hu, rfl⟩ := exists_value_of_real c a hx
  rw [positFloor, onValue_some c _ hu, positRound_eq_ofDyad c hN, ofDyad_ofInt, Dyad.floor_eq]

theorem positCeil_eq_positRound {a : BitVec c.N} {x : ℝ} (hx : Reals.value c a = some x) :
    positCeil c a = Reals.positRound c (⌈x⌉ : Int) := by
  obtain ⟨u, hu, rfl⟩ := exists_value_of_real c a hx
  rw [positCeil, onValue_some c _ hu, positRound_eq_ofDyad c hN, ofDyad_ofInt, Dyad.ceil_eq]

/-- R128: PRND's result rounds an integer that is nearest the operand, the even one of two. -/
theorem positNearest_eq_positRound {a : BitVec c.N} {x : ℝ} (hx : Reals.value c a = some x) :
    ∃ n : Int, |x - n| ≤ 1 / 2 ∧ (|x - n| = 1 / 2 → Even n) ∧ positNearest c a = Reals.positRound c n := by
  obtain ⟨u, hu, rfl⟩ := exists_value_of_real c a hx
  obtain ⟨hdist, heven⟩ := u.nearestEven_spec
  exact ⟨u.nearestEven, hdist, heven,
    by rw [positNearest, onValue_some c _ hu, positRound_eq_ofDyad c hN, ofDyad_ofInt]⟩

end

theorem abs_sub_floor_lt_one (x : ℝ) : |x - ⌊x⌋| < 1 := by
  rw [Int.self_sub_floor, abs_of_nonneg (Int.fract_nonneg x)]; exact Int.fract_lt_one x

theorem abs_sub_ceil_lt_one (x : ℝ) : |x - ⌈x⌉| < 1 := by
  rw [abs_sub_comm, abs_of_nonneg (sub_nonneg.2 (Int.le_ceil x))]; linarith [Int.ceil_lt_add_one x]

/-- Settles O36: the integer nearest a posit is a posit's value, so that rounding it once more loses nothing. -/
theorem prndGivesTheNearestInteger : Obligations.PrndGivesTheNearestInteger := by
  refine ⟨fun cmd => ?_, fun s a hc => ⟨fun x hx => ?_, fun hnar => ?_⟩⟩
  · obtain ⟨-, -, -, -, -, -, -, -, hdecode, -⟩ := opcodesSelectTheCommandAndItsFields cmd
    exact hdecode
  · obtain ⟨n, hdist, heven, hround⟩ := positNearest_eq_positRound hc.1 hx
    exact ⟨n, _, hdist, heven, by rw [exec_prnd, operandPosit, hround], rfl,
      realValue_positRound_of_int_near hc.1 hx (hdist.trans_lt (by norm_num))⟩
  · rw [exec_prnd, operandPosit, hnar, positNearest, onValue_nar]

/-- Settles O37: the integers on either side of a posit are posits' values, so that rounding them loses nothing. -/
theorem pflrAndPceilGiveFloorAndCeiling : Obligations.PflrAndPceilGiveFloorAndCeiling := by
  refine ⟨fun cmd => ?_, fun cmd => ?_, fun s a hc => ⟨fun x hx => ?_, fun hnar => ?_⟩⟩
  · obtain ⟨-, -, -, -, -, -, -, -, -, hdecode, -⟩ := opcodesSelectTheCommandAndItsFields cmd
    exact hdecode
  · obtain ⟨-, -, -, -, -, -, -, -, -, -, hdecode, -⟩ := opcodesSelectTheCommandAndItsFields cmd
    exact hdecode
  · exact ⟨_, _, by rw [exec_pflr, operandPosit, positFloor_eq_positRound hc.1 hx], rfl,
      realValue_positRound_of_int_near hc.1 hx (abs_sub_floor_lt_one x),
      by rw [exec_pceil, operandPosit, positCeil_eq_positRound hc.1 hx], rfl,
      realValue_positRound_of_int_near hc.1 hx (abs_sub_ceil_lt_one x)⟩
  · rw [exec_pflr, exec_pceil, operandPosit, hnar, positFloor, positCeil, onValue_nar, onValue_nar]
    exact ⟨rfl, rfl⟩

end Sys2Proof.Machine
end

section
/-! PROOFS. The quire commands (spec/43_quire.md R161 to R168). QMADD and QMSUB add and subtract the units of the exact
product modulo `2^QW`, the ZERO rule included; QTOP rounds the dyadic `qs / 2^QF`; QRD and QWR are the word view's read
and write bit by bit. QNaR, the least signed pattern of QW bits, absorbs every update but QCLR's and QWR's. -/

namespace Sys2Proof.Machine

open Sys2Proof

/-! ### The opcodes of the quire commands (R64) -/

theorem decode_of_op_qclr {cmd : Cmd} (h : cmd.op = 0x20) : decode cmd = .ok .qclr := by simp [decode, h]

theorem decode_of_op_qneg {cmd : Cmd} (h : cmd.op = 0x21) : decode cmd = .ok .qneg := by simp [decode, h]

theorem decode_of_op_qmadd {cmd : Cmd} (h : cmd.op = 0x22) : decode cmd = .ok (.qmadd cmd.a cmd.b) := by
  simp [decode, h]

theorem decode_of_op_qmsub {cmd : Cmd} (h : cmd.op = 0x23) : decode cmd = .ok (.qmsub cmd.a cmd.b) := by
  simp [decode, h]

theorem decode_of_op_qtop {cmd : Cmd} (h : cmd.op = 0x24) : decode cmd = .ok .qtop := by simp [decode, h]

/-! ### Quire patterns as integers (R21, R169) -/

/-- `u_w(z)` is `z` modulo `2^w`. -/
theorem ofInt_toNat_eq_emod (w : Nat) (z : Int) : ((BitVec.ofInt w z).toNat : Int) = z % 2 ^ w := by
  rw [BitVec.toNat_ofInt, Int.toNat_of_nonneg (Int.emod_nonneg _ (by positivity))]
  push_cast; rfl

/-- QNaR is the least signed integer of QW bits. -/
theorem quireNaR_eq_intMin (c : Config) : quireNaR c = BitVec.intMin c.QW :=
  BitVec.eq_of_toNat_eq (by rw [quireNaR, BitVec.toNat_ofNat, BitVec.toNat_intMin])

theorem quireNaR_ne_zero {c : Config} (hc : c.Legal) : quireNaR c ≠ 0 := by
  obtain ⟨-, -, -, -, hQW, -⟩ := hc
  rw [quireNaR_eq_intMin]
  exact mt BitVec.intMin_eq_zero_iff.1 (by omega)

theorem neg_quireNaR (c : Config) : -quireNaR c = quireNaR c := by rw [quireNaR_eq_intMin, BitVec.neg_intMin]

/-- QNEG is the two's-complement negation of the pattern (R163). -/
theorem exec_qneg_eq_neg (s : State) : exec .qneg s = .next (withQuire s (-s.q)) := by
  rw [exec_qneg, BitVec.ofInt_neg, BitVec.ofInt_toInt]

theorem exec_qneg_quireNaR {s : State} (hq : s.q = quireNaR s.cfg) :
    exec .qneg s = .next (withQuire s (quireNaR s.cfg)) := by rw [exec_qneg_eq_neg, hq, neg_quireNaR]

/-! ### Accumulation (R161, R164, R165) -/

section
variable {c : Config} {q : BitVec c.QW} {a b : BitVec c.N} (sub : Bool)

theorem quireAccumulate_of_nar (hnar : q = quireNaR c ∨ a = positNaR c ∨ b = positNaR c) :
    quireAccumulate c sub q a b = quireNaR c := by
  unfold quireAccumulate
  split
  · rename_i hu hv
    rcases hnar with hq | rfl | rfl
    · exact if_pos hq
    · cases (value_positNaR c).symm.trans hu
    · cases (value_positNaR c).symm.trans hv
  · rfl

/-- A ZERO operand contributes no units. -/
theorem productUnits_eq_zero (hc : c.Legal) {u v : Dyad} (hu : value c a = some u) (hv : value c b = some v)
    (hzero : a = positZero c ∨ b = positZero c) : productUnits c u v = 0 := by
  have hprod : Reals.ofDyad u * Reals.ofDyad v = 0 := by
    rwa [mul_eq_zero, ofDyad_value_eq_zero_iff c hu, ofDyad_value_eq_zero_iff c hv]
  have hunits := productUnits_eq c hc hu hv
  rw [hprod, zero_mul] at hunits
  exact_mod_cast hunits

/-- The ZERO rule agrees with adding the product's units, so that every finite case is one sum modulo `2^QW`. -/
theorem quireAccumulate_of_values (hc : c.Legal) (hq : q ≠ quireNaR c) {u v : Dyad} (hu : value c a = some u)
    (hv : value c b = some v) : quireAccumulate c sub q a b
      = BitVec.ofInt c.QW (if sub then q.toInt - productUnits c u v else q.toInt + productUnits c u v) := by
  rw [quireAccumulate, hu, hv]
  simp only [if_neg hq]
  by_cases hzero : a = positZero c ∨ b = positZero c
  · rw [productUnits_eq_zero hc hu hv hzero, if_pos (by simpa [isZero_iff] using hzero), sub_zero, add_zero, ite_self,
      BitVec.ofInt_toInt]
  · rw [if_neg (by simpa [isZero_iff] using hzero)]

end

/-! ### QMADD and QMSUB (R161, R164, R165) -/

section
variable {s : State} {a b : Bus}

/-- QNaR or a NaR operand leaves QNaR. -/
theorem exec_accumulate_of_nar
    (hnar : s.q = quireNaR s.cfg ∨ a.setWidth s.cfg.N = positNaR s.cfg ∨ b.setWidth s.cfg.N = positNaR s.cfg) :
    exec (.qmadd a b) s = .next (withQuire s (quireNaR s.cfg)) ∧
      exec (.qmsub a b) s = .next (withQuire s (quireNaR s.cfg)) := by
  rw [exec_qmadd, exec_qmsub, operandPosit, operandPosit, quireAccumulate_of_nar false hnar,
    quireAccumulate_of_nar true hnar]
  exact ⟨rfl, rfl⟩

/-- Operands with values add and subtract the units of their exact product. -/
theorem exec_accumulate_of_values (hc : s.cfg.Legal) (hq : s.q ≠ quireNaR s.cfg) {u v : Dyad}
    (hu : value s.cfg (a.setWidth s.cfg.N) = some u) (hv : value s.cfg (b.setWidth s.cfg.N) = some v) :
    exec (.qmadd a b) s = .next (withQuire s (BitVec.ofInt s.cfg.QW (s.q.toInt + productUnits s.cfg u v))) ∧
      exec (.qmsub a b) s = .next (withQuire s (BitVec.ofInt s.cfg.QW (s.q.toInt - productUnits s.cfg u v))) := by
  rw [exec_qmadd, exec_qmsub, operandPosit, operandPosit, quireAccumulate_of_values false hc hq hu hv,
    quireAccumulate_of_values true hc hq hu hv]
  exact ⟨rfl, rfl⟩

end

/-! ### QTOP (R161, R166) -/

section
variable {c : Config}

theorem quireToPosit_quireNaR (hc : c.Legal) : quireToPosit c (quireNaR c) = positNaR c := by
  rw [quireToPosit, if_neg (quireNaR_ne_zero hc), if_pos rfl]

theorem quireToPosit_eq_positRound (hN : 3 ≤ c.N) {q : BitVec c.QW} (hq : q ≠ quireNaR c) :
    quireToPosit c q = Reals.positRound c ((q.toInt : ℝ) / 2 ^ c.QF) := by
  rw [quireToPosit, if_neg hq]
  split_ifs with h0
  · simp [h0]
  · rw [positRound_eq_ofDyad c hN, Reals.ofDyad, zpow_neg, zpow_natCast, div_eq_mul_inv]

/-- Only the all-zero quire rounds to ZERO. -/
theorem quireToPosit_eq_positZero_iff (hc : c.Legal) (q : BitVec c.QW) :
    quireToPosit c q = positZero c ↔ q = 0 := by
  by_cases hq : q = quireNaR c
  · rw [hq, quireToPosit_quireNaR hc]
    exact iff_of_false (positNaR_ne_positZero hc.1) (quireNaR_ne_zero hc)
  · rw [quireToPosit_eq_positRound hc.1 hq, positRound_eq_positZero_iff hc.1, div_eq_zero_iff, Int.cast_eq_zero,
      or_iff_left (by positivity), ← BitVec.toInt_inj, BitVec.ofNat_eq_ofNat, BitVec.toInt_zero]

/-- Only QNaR gives NaR. -/
theorem quireToPosit_eq_positNaR_iff (hc : c.Legal) (q : BitVec c.QW) :
    quireToPosit c q = positNaR c ↔ q = quireNaR c := by
  refine ⟨fun h => ?_, fun h => by rw [h, quireToPosit_quireNaR hc]⟩
  by_contra hq
  rw [quireToPosit_eq_positRound hc.1 hq] at h
  exact positRound_ne_positNaR hc.1 _ h

theorem exec_qtop_quireNaR {s : State} (hc : s.cfg.Legal) (hq : s.q = quireNaR s.cfg) :
    exec .qtop s = .next (withResult s (positNaR s.cfg)) := by rw [exec_qtop, hq, quireToPosit_quireNaR hc]

end

/-- No command but QCLR and QWR takes `Q` away from QNaR (R161). -/
theorem exec_keeps_quireNaR {i : Instr} {s t : State} (hq : s.q = quireNaR s.cfg) (h : exec i s = .next t)
    (hclr : i ≠ .qclr) (hwr : ∀ idx data, i ≠ .qwr idx data) : t.q = quireNaR t.cfg := by
  rcases exec_next_cases i s t h with ⟨hw, -⟩ | ⟨-, r, rfl⟩
  · cases i with
    | qclr => exact absurd rfl hclr
    | qwr idx data => exact absurd rfl (hwr idx data)
    | qneg => cases (exec_qneg_quireNaR hq).symm.trans h; rfl
    | qmadd a b => cases (exec_accumulate_of_nar (.inl hq)).1.symm.trans h; rfl
    | qmsub a b => cases (exec_accumulate_of_nar (.inl hq)).2.symm.trans h; rfl
    | _ => cases hw
  · exact hq

/-! ### The statements -/

/-- Settles O40: QNEG negates the pattern, and 0 and the least signed integer are their own negations. -/
theorem qclrAndQnegCompute : Obligations.QclrAndQnegCompute := by
  refine ⟨fun _ => decode_of_op_qclr, fun _ => decode_of_op_qneg, fun s _ =>
    ⟨exec_qclr s, -s.q, exec_qneg_eq_neg s, ?_, fun h0 => ?_, fun hq => ?_⟩⟩
  · rw [← ofInt_toNat_eq_emod, BitVec.ofInt_neg, BitVec.ofInt_toInt]
  · rw [h0]; exact BitVec.neg_zero _
  · rw [hq, neg_quireNaR]

/-- Settles O42: the integer is the product's units, which are 0 for a ZERO operand. -/
theorem qmaddAndQmsubAccumulateExactly : Obligations.QmaddAndQmsubAccumulateExactly := by
  refine ⟨fun _ => decode_of_op_qmadd, fun _ => decode_of_op_qmsub, fun s a b hc =>
    ⟨exec_accumulate_of_nar, fun x y hq hx hy => ?_⟩⟩
  obtain ⟨u, hu, rfl⟩ := exists_value_of_real _ _ hx
  obtain ⟨v, hv, rfl⟩ := exists_value_of_real _ _ hy
  obtain ⟨hadd, hsub⟩ := exec_accumulate_of_values hc hq hu hv
  refine ⟨productUnits s.cfg u v, _, _, productUnits_eq s.cfg hc hu hv, hadd, ofInt_toNat_eq_emod _ _, hsub,
    ofInt_toNat_eq_emod _ _, fun hzero => ?_⟩
  rw [productUnits_eq_zero hc hu hv hzero, add_zero, sub_zero, BitVec.ofInt_toInt]
  exact ⟨rfl, rfl⟩

/-- Settles O43: the commands that write `Q`, QCLR and QWR apart, leave QNaR where they find it. -/
theorem quireNaRAbsorbs : Obligations.QuireNaRAbsorbs := by
  refine fun s a b hc => ⟨exec_accumulate_of_nar, fun hq => ⟨exec_qneg_quireNaR hq, exec_qtop_quireNaR hc hq,
    fun i t h => ?_⟩⟩
  by_cases hclr : i = .qclr
  · exact .inl hclr
  by_cases hwr : ∃ idx data, i = .qwr idx data
  · exact .inr (.inl hwr)
  · exact .inr (.inr (exec_keeps_quireNaR hq h hclr fun idx data he => hwr ⟨idx, data, he⟩))

/-- Settles O44: the quire is a dyadic, `posit_round` gives ZERO for 0 alone, and it never gives NaR. -/
theorem qtopRoundsTheExactQuireOnce : Obligations.QtopRoundsTheExactQuireOnce := by
  refine ⟨fun _ => decode_of_op_qtop, fun s hc => ⟨fun hq => ?_, exec_qtop_quireNaR hc,
    quireToPosit s.cfg s.q, exec_qtop s, quireToPosit_eq_positZero_iff hc s.q, quireToPosit_eq_positNaR_iff hc s.q⟩⟩
  rw [exec_qtop, quireToPosit_eq_positRound hc.1 hq]

/-- Settles O46: the word view's read, bit by bit. -/
theorem qrdReadsTheWordView : Obligations.QrdReadsTheWordView :=
  ⟨fun _ => decode_of_op_qrd, fun s _ _ =>
    ⟨fun hidx => ⟨_, exec_qrd s hidx, fun _ hj => quireRead_getLsbD s.cfg s.q hidx hj⟩,
      fun hidx => exec_qrd_refused s hidx.not_gt⟩⟩

/-- Settles O47: the word view's write, bit by bit. -/
theorem qwrWritesTheWordView : Obligations.QwrWritesTheWordView :=
  ⟨fun _ => decode_of_op_qwr, fun s _ data _ =>
    ⟨fun hidx => ⟨_, exec_qwr s data hidx, fun _ hj => quireWrite_getLsbD s.cfg s.q data hidx hj⟩,
      fun hidx => exec_qwr_refused s data hidx.not_gt⟩⟩

end Sys2Proof.Machine
end

section
/-! PROOFS. The conditions that yield NaR (spec/60_exceptions.md R201). NaR is the result of the rule that R121 puts
before the finite computation; PENC only ever rounds a real number, and rounding never gives NaR (R106). -/

namespace Sys2Proof.Machine

open Sys2Proof

/-! ### NaR operands -/

section
variable {s : State} {a b : Bus}

/-- A NaR operand, first or second, gives NaR in every arithmetic command of two operands. -/
theorem exec_binary_of_nar (hnar : a.setWidth s.cfg.N = positNaR s.cfg ∨ b.setWidth s.cfg.N = positNaR s.cfg) :
    exec (.padd a b) s = .next (withResult s (positNaR s.cfg)) ∧
      exec (.psub a b) s = .next (withResult s (positNaR s.cfg)) ∧
      exec (.pmul a b) s = .next (withResult s (positNaR s.cfg)) ∧
      exec (.pdiv a b) s = .next (withResult s (positNaR s.cfg)) := by
  rw [exec_padd, exec_psub, exec_pmul, exec_pdiv, operandPosit, operandPosit, positAdd_of_nar hnar,
    positSub_of_nar hnar, positMul_of_nar hnar, positDiv_of_nar hnar]
  exact ⟨rfl, rfl, rfl, rfl⟩

/-- A NaR operand gives NaR in every arithmetic command of one operand. -/
theorem exec_unary_of_nar (hnar : a.setWidth s.cfg.N = positNaR s.cfg) :
    exec (.psqrt a) s = .next (withResult s (positNaR s.cfg)) ∧
      exec (.prnd a) s = .next (withResult s (positNaR s.cfg)) ∧
      exec (.pflr a) s = .next (withResult s (positNaR s.cfg)) ∧
      exec (.pceil a) s = .next (withResult s (positNaR s.cfg)) ∧
      exec (.pneg a) s = .next (withResult s (positNaR s.cfg)) := by
  rw [exec_psqrt, exec_prnd, exec_pflr, exec_pceil, exec_pneg, operandPosit, hnar, positSqrt_positNaR, positNearest,
    positFloor, positCeil, onValue_nar, onValue_nar, onValue_nar, neg_positNaR]
  exact ⟨rfl, rfl, rfl, rfl, rfl⟩

/-! ### The ZERO divisor and the negative radicand -/

theorem exec_pdiv_of_zero_divisor (hzero : b.setWidth s.cfg.N = positZero s.cfg) :
    exec (.pdiv a b) s = .next (withResult s (positNaR s.cfg)) := by
  rw [exec_pdiv, operandPosit, operandPosit, hzero, positDiv_of_zero_divisor]

/-- Every pattern below 0 has the sign bit 1, NaR's too. -/
theorem exec_psqrt_of_toInt_neg (hneg : (a.setWidth s.cfg.N).toInt < 0) :
    exec (.psqrt a) s = .next (withResult s (positNaR s.cfg)) := by
  have hsign : signBit s.cfg (a.setWidth s.cfg.N) = true := by
    rw [signBit_eq_msb, BitVec.msb_eq_toInt, decide_eq_true hneg]
  rw [exec_psqrt, operandPosit, positSqrt, if_pos hsign]

end

/-! ### PDEC and PENC -/

theorem decodeResponse_nar_iff {c : Config} (hN : 3 ≤ c.N) (p : BitVec c.N) :
    (decodeResponse c p).nar = true ↔ p = positNaR c := by
  by_cases h1 : p = positNaR c
  · rw [h1, decodeResponse_positNaR hN]; exact iff_of_true rfl rfl
  refine iff_of_false (fun hnar => ?_) h1
  by_cases h0 : p = positZero c
  · rw [h0, decodeResponse_positZero] at hnar; cases hnar
  · obtain ⟨-, -, hflag, -⟩ := decodeResponse_flags h0 h1
    cases hflag.symm.trans hnar

/-- PENC's result is `posit_round` of a real that its operands denote: with sticky 1, say, the one halfway into the last
fraction bit. -/
theorem pack_frac64_ne_positNaR {c : Config} (hc : c.Legal) (sgn : Bool) (scale : Int) (frac : QuireWord)
    (stk : Bool) : pack c sgn scale { len := 64, val := frac.toNat } stk ≠ positNaR c := by
  obtain ⟨d, h0, h1, hd⟩ : ∃ d : ℝ, 0 ≤ d ∧ d < 1 ∧ (stk = true ↔ d ≠ 0) := by
    cases stk
    · exact ⟨0, le_rfl, one_pos, by simp⟩
    · exact ⟨1 / 2, by norm_num, by norm_num, by norm_num⟩
  rw [pack_frac64_eq_positRound c hc.2.1 hc.1 sgn scale frac stk h0 h1 hd rfl]
  exact positRound_ne_positNaR hc.1 _

/-- Settles O38: every row of R201's table is the special-operand rule of its command; PENC rounds a real. -/
theorem everyNaRConditionGivesNaR : Obligations.EveryNaRConditionGivesNaR := by
  refine fun s a b hc => ⟨fun hnar => ?_, exec_pdiv_of_zero_divisor, exec_psqrt_of_toInt_neg, fun hnar => ?_,
    exec_qtop_quireNaR hc, ⟨_, exec_pdec s a, decodeResponse_nar_iff hc.1 _⟩,
    fun sgn scale frac stk => ⟨_, exec_penc s sgn scale frac stk, pack_frac64_ne_positNaR hc sgn _ frac stk⟩⟩
  · obtain ⟨hadd, hsub, hmul, hdiv⟩ := exec_binary_of_nar (b := b) (.inl hnar)
    obtain ⟨hadd', hsub', hmul', hdiv'⟩ := exec_binary_of_nar (a := b) (.inr hnar)
    exact ⟨hadd, hadd', hsub, hsub', hmul, hmul', hdiv, hdiv', exec_unary_of_nar hnar⟩
  · exact exec_accumulate_of_nar (or_rotate.2 hnar)

end Sys2Proof.Machine
end

section
/-! PROOFS. Reset (spec/70_reset_and_hazards.md R220 to R222). A reset, alone or during a command, is one step to
`takeReset`; a command that the host may present would have completed, so that its reset is never refused. -/

namespace Sys2Proof.Machine

open Sys2Proof

/-! ### Commands the host may present (R225) -/

/-- A command with no quire word index out of range completes. -/
theorem exec_completes_of_wellFormed {i : Instr} {s : State} (hw : i.wellFormed s.cfg = true) :
    ∃ t, exec i s = .next t := by
  obtain hnext | ⟨idx, rfl | ⟨data, rfl⟩, hi, -⟩ := exec_outcome_cases i s
  · exact hnext
  · exact absurd (of_decide_eq_true hw) hi.not_gt
  · exact absurd (of_decide_eq_true hw) hi.not_gt

theorem cmdAllowed_iff (c : Config) (cmd : Cmd) :
    cmdAllowed c cmd = true ↔ ∃ i, decode cmd = .ok i ∧ i.wellFormed c = true := by
  obtain ⟨-, i, hd, -⟩ | ⟨-, hd⟩ := decode_cases cmd <;> simp [cmdAllowed, hd]

/-- A record that the host may present is answered with a next state. -/
theorem runCommand_completes_of_cmdAllowed {cmd : Cmd} {s : State} (ha : cmdAllowed s.cfg cmd = true) :
    ∃ t, runCommand cmd s = .next t := by
  obtain ⟨i, hd, hw⟩ := (cmdAllowed_iff s.cfg cmd).1 ha
  rw [runCommand_of_decode hd]
  exact exec_completes_of_wellFormed hw

/-! ### The step that takes a reset -/

theorem step_of_reset {s : State} {rest : List HostEvent} (hl : s.instanceLegal) (hp : s.pending = .reset :: rest) :
    step s = .next (State.takeReset { s with pending := rest }) := by
  rw [step_of_legal hl, hp]; rfl

/-- Nothing of what the command would have answered is in the next state (R221). -/
theorem abandonCommand_of_cmdAllowed {cmd : Cmd} {s : State} (ha : cmdAllowed s.cfg cmd = true) :
    abandonCommand cmd s = .next s.takeReset := by
  obtain ⟨t, ht⟩ := runCommand_completes_of_cmdAllowed ha
  rw [abandonCommand, ht]

theorem step_of_resetDuring {s : State} {cmd : Cmd} {rest : List HostEvent} (hl : s.instanceLegal)
    (ha : cmdAllowed s.cfg cmd = true) (hp : s.pending = .resetDuring cmd :: rest) :
    step s = .next (State.takeReset { s with pending := rest }) := by
  rw [step_of_legal hl, hp]
  exact abandonCommand_of_cmdAllowed (s := { s with pending := rest }) ha

/-! ### The statements -/

/-- Settles O8: the state after reset and the step that takes a reset both have `Q` 0 and no response. -/
theorem resetClearsTheQuire : Obligations.ResetClearsTheQuire :=
  ⟨fun c => ⟨resetFor_q c, resetFor_resp c, resetFor_cfg c⟩, fun _ _ hl hp =>
    ⟨_, step_of_reset hl hp, takeReset_q _, takeReset_resp _, takeReset_cfg _⟩⟩

/-- Settles O9: the command would have completed, so that the step takes the reset, and from the state before it. -/
theorem resetAbandonsTheCommandInProgress : Obligations.ResetAbandonsTheCommandInProgress :=
  fun _ _ _ hl ha hp =>
    ⟨_, step_of_resetDuring hl ha hp, takeReset_q _, takeReset_resp _, takeReset_cfg _⟩

end Sys2Proof.Machine
end

section
/-! PROOFS. Records and their fields (spec/30_encoding.md R61, R64, R65, R69). The fields have places of their own in
the bits of a record, the decoder undoes the encoder, and two records that agree on the fields in use decode alike. -/

namespace Sys2Proof

open Sys2Proof.Machine

/-! ### The records of commands (R64, R69) -/

/-- Settles O1: each row is one evaluation of the decoder. -/
theorem everyTableWordDecodesToItsCommand : Obligations.EveryTableWordDecodesToItsCommand := by
  unfold Obligations.EveryTableWordDecodesToItsCommand
  and_intros <;> rfl

/-- The record of a command decodes to it, by the round trip of its constructor. -/
theorem decode_encode : (i : Instr) → decode (encode i) = .ok i
  | .pdec a => Laws.RecordRoundTrip.pdec a
  | .penc sgn scale frac stk => Laws.RecordRoundTrip.penc sgn scale frac stk
  | .pneg a => Laws.RecordRoundTrip.pneg a
  | .padd a b => Laws.RecordRoundTrip.padd a b
  | .psub a b => Laws.RecordRoundTrip.psub a b
  | .pmul a b => Laws.RecordRoundTrip.pmul a b
  | .pdiv a b => Laws.RecordRoundTrip.pdiv a b
  | .psqrt a => Laws.RecordRoundTrip.psqrt a
  | .prnd a => Laws.RecordRoundTrip.prnd a
  | .pflr a => Laws.RecordRoundTrip.pflr a
  | .pceil a => Laws.RecordRoundTrip.pceil a
  | .qclr => Laws.RecordRoundTrip.qclr
  | .qneg => Laws.RecordRoundTrip.qneg
  | .qmadd a b => Laws.RecordRoundTrip.qmadd a b
  | .qmsub a b => Laws.RecordRoundTrip.qmsub a b
  | .qtop => Laws.RecordRoundTrip.qtop
  | .qrd idx => Laws.RecordRoundTrip.qrd idx
  | .qwr idx data => Laws.RecordRoundTrip.qwr idx data

/-- The widths of the record's fields (R61). -/
theorem fields_lt (cmd : Cmd) : cmd.op.toNat < 2 ^ 8 ∧ cmd.a.toNat < 2 ^ 32 ∧ cmd.b.toNat < 2 ^ 32 ∧
    cmd.s.toNat ≤ 1 ∧ cmd.c.toNat < 2 ^ 16 ∧ cmd.d.toNat < 2 ^ 64 ∧ cmd.t.toNat ≤ 1 :=
  ⟨cmd.op.isLt, cmd.a.isLt, cmd.b.isLt, cmd.s.toNat_le, cmd.c.isLt, cmd.d.isLt, cmd.t.toNat_le⟩

theorem toWord_lt (cmd : Cmd) : cmd.toWord < 2 ^ Cmd.bits := by
  have hfields := fields_lt cmd
  rw [Cmd.toWord, Cmd.bits]
  omega

/-- A bit written as a number is read back. -/
theorem beq_one_of_eq_toNat {n : Nat} {b : Bool} (h : n = b.toNat) : (n == 1) = b := by
  subst h; cases b <;> rfl

/-- Each field is cut out of the bits at its own place: the fields below it are less than its unit. -/
theorem ofWord_toWord (cmd : Cmd) : Cmd.ofWord cmd.toWord = cmd := by
  have hfields := fields_lt cmd
  obtain ⟨op, a, b, s, c, d, t⟩ := cmd
  simp only [Cmd.ofWord, Cmd.toWord, Cmd.mk.injEq] at hfields ⊢
  refine ⟨?_, ?_, ?_, ?_, ?_, ?_, ?_⟩
  case refine_4 => exact beq_one_of_eq_toNat (by omega)
  case refine_7 => exact beq_one_of_eq_toNat (by omega)
  all_goals
    apply BitVec.eq_of_toNat_eq
    rw [BitVec.toNat_ofNat]
    omega

/-- Settles O3: the fields have places of their own in the record's bits, and the decoder reads the opcode it answers
for. -/
theorem encodedCommandDecodesToItself : Obligations.EncodedCommandDecodesToItself := by
  refine ⟨fun i => ⟨decode_encode i, ?_⟩, fun cmd => ⟨ofWord_toWord cmd, toWord_lt cmd⟩,
    fun _ _ hd => (op_of_decode hd).symm⟩
  rw [decodeTableWord, Cmd.ofTableWord, Nat.mod_eq_of_lt (toWord_lt _), ofWord_toWord, decode_encode]

/-- Two records of one command decode alike when they agree on the fields it uses: the table of R61, row by row. -/
theorem decode_congr {i : Instr} {a a' b b' : Bus} {s s' t t' : Bool} {c c' : Half} {d d' : QuireWord}
    (ha : (encode i).op ∈ ([0x01, 0x03, 0x10, 0x11, 0x12, 0x13, 0x14, 0x15, 0x16, 0x17, 0x22, 0x23] : List Opcode) →
      a = a')
    (hb : (encode i).op ∈ ([0x10, 0x11, 0x12, 0x13, 0x22, 0x23] : List Opcode) → b = b')
    (hst : (encode i).op = 0x02 → s = s' ∧ t = t')
    (hc : (encode i).op ∈ ([0x02, 0x25, 0x26] : List Opcode) → c = c')
    (hd : (encode i).op ∈ ([0x02, 0x26] : List Opcode) → d = d') :
    decode ⟨(encode i).op, a, b, s, c, d, t⟩ = decode ⟨(encode i).op, a', b', s', c', d', t'⟩ := by
  cases i with
  | pdec | pneg | psqrt | prnd | pflr | pceil =>
    obtain rfl := ha (of_decide_eq_true rfl)
    rfl
  | penc =>
    obtain ⟨rfl, rfl⟩ := hst rfl
    obtain rfl := hc (of_decide_eq_true rfl)
    obtain rfl := hd (of_decide_eq_true rfl)
    rfl
  | padd | psub | pmul | pdiv | qmadd | qmsub =>
    obtain rfl := ha (of_decide_eq_true rfl)
    obtain rfl := hb (of_decide_eq_true rfl)
    rfl
  | qclr | qneg | qtop => rfl
  | qrd =>
    obtain rfl := hc (of_decide_eq_true rfl)
    rfl
  | qwr =>
    obtain rfl := hc (of_decide_eq_true rfl)
    obtain rfl := hd (of_decide_eq_true rfl)
    rfl

/-- Settles O4: a reserved opcode is refused whatever the fields are, and an assigned one takes its own fields only. -/
theorem unusedFieldsAreIgnored : Obligations.UnusedFieldsAreIgnored := by
  rintro ⟨op, a, b, s, c, d, t⟩ ⟨-, a', b', s', c', d', t'⟩ rfl ha hb hst hc hd st
  suffices hdecode : decode ⟨op, a, b, s, c, d, t⟩ = decode ⟨op, a', b', s', c', d', t'⟩ from
    ⟨hdecode, by rw [runCommand, runCommand, hdecode]⟩
  obtain ⟨-, i, -, rfl : op = (encode i).op⟩ | ⟨hres, hi⟩ := decode_cases ⟨op, a, b, s, c, d, t⟩
  · exact decode_congr ha hb hst hc hd
  · rw [hi, (decode_eq_error_iff ⟨op, a', b', s', c', d', t'⟩ op).2 ⟨rfl, hres⟩]

/-- Bits `N-1..0` of a bus are all that operand assembly reads (R65). -/
theorem operandPosit_congr {c : Config} {a a' : Bus} (h : ∀ j, j < c.N → a.getLsbD j = a'.getLsbD j) :
    operandPosit c a = operandPosit c a' :=
  BitVec.eq_of_getLsbD_eq fun j hj => by
    rw [operandPosit, operandPosit, BitVec.getLsbD_setWidth, BitVec.getLsbD_setWidth, h j hj]

/-- Settles O5: each command reads its operand buses through operand assembly. -/
theorem busBitsAboveThePositAreIgnored : Obligations.BusBitsAboveThePositAreIgnored := by
  intro s a a' b b' ha hb
  simp only [exec_pdec, exec_pneg, exec_psqrt, exec_prnd, exec_pflr, exec_pceil, exec_padd, exec_psub, exec_pmul,
    exec_pdiv, exec_qmadd, exec_qmsub, operandPosit_congr ha, operandPosit_congr hb, and_self]

end Sys2Proof
end

section
/-! PROOFS. Commands and steps (spec/20_memory.md R44, R46; spec/70_reset_and_hazards.md R222, R225, R226). A command is
its equation, which speaks of the configuration and `Q` alone; a step takes one event off the list and answers it, so
that each claim about steps and runs comes down to what one event does. -/

namespace Sys2Proof.Machine

open Sys2Proof

/-! ### What a command completes with and leaves (R44, R62, R67) -/

/-- Only a QRD or QWR index out of range makes a command ill-formed (R67). -/
theorem index_out_of_range_of_not_wellFormed {c : Config} {i : Instr} (h : i.wellFormed c = false) :
    ∃ idx : Half, (i = .qrd idx ∨ ∃ data, i = .qwr idx data) ∧ c.quireWords ≤ idx.toNat := by
  cases i with
  | qrd idx => exact ⟨idx, .inl rfl, not_lt.1 (of_decide_eq_false h)⟩
  | qwr idx data => exact ⟨idx, .inr ⟨data, rfl⟩, not_lt.1 (of_decide_eq_false h)⟩
  | _ => cases h

/-- Settles O12: a well-formed command completes, and an index out of range is refused by the command that has it. -/
theorem commandsCompleteExactlyWhenWellFormed : Obligations.CommandsCompleteExactlyWhenWellFormed := by
  refine fun i s => ⟨exec_completes_of_wellFormed, fun hw => ?_⟩
  obtain ⟨idx, hform, hidx⟩ := index_out_of_range_of_not_wellFormed hw
  refine ⟨idx, hform, hidx, ?_⟩
  obtain rfl | ⟨data, rfl⟩ := hform
  · exact exec_qrd_refused s hidx.not_gt
  · exact exec_qwr_refused s data hidx.not_gt

/-- A QRD that completes had a legal index and answers the word there. -/
theorem exec_qrd_next {idx : Half} {s t : State} (h : exec (.qrd idx) s = .next t) :
    idx.toNat < s.cfg.quireWords ∧ t = withWord s (quireRead s.cfg s.q idx.toNat) := by
  by_cases hi : idx.toNat < s.cfg.quireWords
  · cases (exec_qrd s hi).symm.trans h; exact ⟨hi, rfl⟩
  · cases (exec_qrd_refused s hi).symm.trans h

/-- A QWR that completes had a legal index and replaced the word there. -/
theorem exec_qwr_next {idx : Half} {data : QuireWord} {s t : State} (h : exec (.qwr idx data) s = .next t) :
    idx.toNat < s.cfg.quireWords ∧ t = withQuire s (quireWrite s.cfg s.q idx.toNat data) := by
  by_cases hi : idx.toNat < s.cfg.quireWords
  · cases (exec_qwr s data hi).symm.trans h; exact ⟨hi, rfl⟩
  · cases (exec_qwr_refused s data hi).symm.trans h

/-- PDEC writes no posit result (R88). -/
theorem decodeResponse_r (c : Config) (p : BitVec c.N) : (decodeResponse c p).r = 0 := by
  rw [decodeResponse]; split_ifs <;> rfl

/-- Settles O13: the equation of each command, one by one. -/
theorem commandsChangeOnlyTheirOwnState : Obligations.CommandsChangeOnlyTheirOwnState := by
  intro i s t h
  cases i with
  | pdec a => cases h; exact ⟨_, decodeResponse_r s.cfg _, rfl⟩
  | qrd idx => exact ⟨_, (exec_qrd_next h).2⟩
  | qwr idx data => exact ⟨_, (exec_qwr_next h).2⟩
  | _ => cases h; exact ⟨_, rfl⟩

/-- Settles O14: the equation of each command speaks of the configuration and `Q` alone. -/
theorem commandsDependOnTheQuireAlone : Obligations.CommandsDependOnTheQuireAlone := by
  intro i s t r p n h
  cases i with
  | qrd idx => obtain ⟨hi, rfl⟩ := exec_qrd_next h; exact exec_qrd { s with resp := r, pending := p, hosts := n } hi
  | qwr idx data =>
    obtain ⟨hi, rfl⟩ := exec_qwr_next h
    exact exec_qwr { s with resp := r, pending := p, hosts := n } data hi
  | _ => cases h; rfl

/-! ### The step (R46, R47, R210) -/

/-- Settles O7: the step runs the record, and the record is the command it decodes to. -/
theorem stepRunsThePresentedCommand : Obligations.StepRunsThePresentedCommand := by
  intro s cmd rest i hl hp hd
  rw [step_of_command hl hp, runCommand_of_decode hd]

/-- Settles O10: the step looks at the configuration, then at the hosts, before anything presented. -/
theorem unspecifiedInstancesAreRefused : Obligations.UnspecifiedInstancesAreRefused := by
  refine fun s => ⟨fun hc => ?_, fun hc hh => ?_⟩
  · rw [step, instanceRefusal, if_pos hc]
  · rw [step, instanceRefusal, if_neg (not_not.2 hc), if_pos hh]

theorem step_of_idle {s : State} (hl : s.instanceLegal) (hp : s.pending = []) : step s = .next s := by
  rw [step_of_legal hl, hp]

/-- Settles O11: the step with nothing presented is the idle one. -/
theorem idleStepKeepsTheState : Obligations.IdleStepKeepsTheState := fun _ => step_of_idle

/-- Settles O51: the first record decodes to its command, and the step takes that record off. -/
theorem presentedProgramsRunInOrder : Obligations.PresentedProgramsRunInOrder := by
  intro s i p hl hp
  have hpending : (s.present (i :: p)).pending = .command (encode i) :: (p.map encode).map HostEvent.command := by
    rw [present_pending, hp]; rfl
  exact (step_of_command (s := s.present (i :: p)) hl hpending).trans (runCommand_of_decode (decode_encode i) _)

/-- Settles O16: a command keeps all three fields, and the step takes one element off the list before it runs. -/
theorem stepsKeepTheConfiguration : Obligations.StepsKeepTheConfiguration := by
  intro s t h
  obtain ⟨-, ⟨hp, rfl⟩ | ⟨cmd, rest, i, hp, -, he⟩ | ⟨rest, hp, rfl⟩ | ⟨cmd, rest, hp, rfl⟩⟩ := step_next_cases h
  · exact ⟨rfl, rfl, by rw [hp]; rfl⟩
  · rw [hp, exec_keeps_cfg he, exec_keeps_hosts he, exec_keeps_pending he]
    exact ⟨rfl, rfl, rfl⟩
  all_goals rw [hp]; exact ⟨rfl, rfl, rfl⟩

/-! ### A host that keeps to its side (R225) -/

/-- Whatever the host may do is answered. -/
theorem takeEvent_completes_of_allowed {ev : HostEvent} {s : State} (ha : ev.allowed s.cfg = true) :
    ∃ t, takeEvent ev s = .next t := by
  cases ev with
  | command cmd => exact runCommand_completes_of_cmdAllowed ha
  | reset => exact ⟨_, rfl⟩
  | resetDuring cmd => exact ⟨_, abandonCommand_of_cmdAllowed ha⟩

theorem step_completes_of_wellDriven {s : State} (h : s.wellDriven) : ∃ t, step s = .next t := by
  obtain ⟨hl, hall⟩ := h
  cases hp : s.pending with
  | nil => exact ⟨s, step_of_idle hl hp⟩
  | cons ev rest =>
    rw [hp, List.all_cons, Bool.and_eq_true] at hall
    rw [step_of_legal hl, hp]
    exact takeEvent_completes_of_allowed (s := { s with pending := rest }) hall.1

/-- A step leaves less to present, and the rest is still allowed. -/
theorem wellDriven_of_step {s t : State} (hw : s.wellDriven) (h : step s = .next t) : t.wellDriven := by
  obtain ⟨hl, hall⟩ := hw
  obtain ⟨hcfg, hhosts, hpending⟩ := stepsKeepTheConfiguration s t h
  unfold State.wellDriven State.instanceLegal
  rw [hcfg, hhosts, hpending]
  rw [List.all_eq_true] at hall ⊢
  exact ⟨hl, fun ev hev => hall ev (List.mem_of_mem_tail hev)⟩

/-- Settles O19, by induction on the number of steps: a well-driven state steps to a well-driven state. -/
theorem wellDrivenRunsAreNeverRefused : Obligations.WellDrivenRunsAreNeverRefused := by
  intro s n hw
  induction n generalizing s with
  | zero => exact ⟨s, run_zero s, hw, rfl, rfl⟩
  | succ n ih =>
    obtain ⟨u, hu⟩ := step_completes_of_wellDriven hw
    obtain ⟨hcfg, -, hpending⟩ := stepsKeepTheConfiguration s u hu
    obtain ⟨t, hrun, hwt, hcfgt, hpendingt⟩ := ih u (wellDriven_of_step hw hu)
    refine ⟨t, (run_succ n hu).trans hrun, hwt, hcfgt.trans hcfg, ?_⟩
    rw [hpendingt, hpending, List.drop_tail]

/-! ### The latency (R226) -/

theorem exec_withLatency (n : Nat) {i : Instr} {s t : State} (h : exec i s = .next t) :
    exec i (withLatency n s) = .next (withLatency n t) := by
  cases i with
  | qrd idx => obtain ⟨hi, rfl⟩ := exec_qrd_next h; exact exec_qrd (withLatency n s) hi
  | qwr idx data => obtain ⟨hi, rfl⟩ := exec_qwr_next h; exact exec_qwr (withLatency n s) data hi
  | _ => cases h; rfl

theorem runCommand_withLatency (n : Nat) {cmd : Cmd} {s t : State} (h : runCommand cmd s = .next t) :
    runCommand cmd (withLatency n s) = .next (withLatency n t) := by
  obtain ⟨i, hd, he⟩ := runCommand_next h
  rw [runCommand_of_decode hd, exec_withLatency n he]

/-- A command that a reset abandons would have completed. -/
theorem abandonCommand_next {cmd : Cmd} {s t : State} (h : abandonCommand cmd s = .next t) :
    (∃ u, runCommand cmd s = .next u) ∧ t = s.takeReset := by
  unfold abandonCommand at h
  split at h
  · cases h; exact ⟨⟨_, ‹_›⟩, rfl⟩
  all_goals cases h

theorem takeEvent_withLatency (n : Nat) {ev : HostEvent} {s t : State} (h : takeEvent ev s = .next t) :
    takeEvent ev (withLatency n s) = .next (withLatency n t) := by
  cases ev with
  | command cmd => exact runCommand_withLatency n h
  | reset => cases h; rfl
  | resetDuring cmd =>
    obtain ⟨⟨u, hu⟩, rfl⟩ := abandonCommand_next h
    rw [takeEvent, abandonCommand, runCommand_withLatency n hu]
    rfl

/-- Settles O15: only the legality of the configuration reads the latency, and every latency from 1 on is legal. -/
theorem noStepDependsOnTheLatency : Obligations.NoStepDependsOnTheLatency := by
  intro s t n hn h
  have hl := legal_of_step_next h
  have hl' : (withLatency n s).instanceLegal := by
    obtain ⟨⟨hN, hN', hES, hQF, hQW, -⟩, hhosts⟩ := hl
    exact ⟨⟨hN, hN', hES, hQF, hQW, hn⟩, hhosts⟩
  cases hp : s.pending with
  | nil =>
    cases (step_of_idle hl hp).symm.trans h
    exact step_of_idle hl' hp
  | cons ev rest =>
    rw [step_of_legal hl, hp] at h
    rw [step_of_legal hl', withLatency_pending, hp]
    exact takeEvent_withLatency n (s := { s with pending := rest }) h

/-! ### The invariant (R62, R66, R81 to R86, R222) -/

/-- All the forms of the state that a command can leave: `Q` written, or a response of PDEC, a posit or a quire word. -/
theorem exec_next_forms {i : Instr} {s t : State} (h : exec i s = .next t) :
    (∃ v, t = withQuire s v) ∨ (∃ z, t = withResult s z) ∨ (∃ v, t = withWord s v) ∨
      ∃ p, t = s.respond (decodeResponse s.cfg p) := by
  cases i with
  | pdec a => cases h; exact .inr (.inr (.inr ⟨_, rfl⟩))
  | qrd idx => exact .inr (.inr (.inl ⟨_, (exec_qrd_next h).2⟩))
  | qwr idx data => exact .inl ⟨_, (exec_qwr_next h).2⟩
  | qclr | qneg | qmadd | qmsub => cases h; exact .inl ⟨_, rfl⟩
  | _ => cases h; exact .inr (.inl ⟨_, rfl⟩)

theorem empty_fits (c : Config) : Response.empty.fits c := by
  simp [Response.fits, Response.empty]

theorem ofPosit_fits (c : Config) (z : BitVec c.N) : (Response.ofPosit c z).fits c := by
  have hz : z.toNat % 2 ^ 32 < 2 ^ c.N := (Nat.mod_le _ _).trans_lt z.isLt
  simpa [Response.fits, Response.ofPosit, Response.empty] using hz

theorem ofWord_fits (c : Config) (v : QuireWord) : (Response.ofWord v).fits c := by
  simp [Response.fits, Response.ofWord, Response.empty]

/-- PDEC's fields are the decoded ones, and lie in their ranges (R81 to R86). -/
theorem decodeResponse_fits {c : Config} (hc : c.Legal) (p : BitVec c.N) : (decodeResponse c p).fits c := by
  have hN := hc.1
  by_cases h0 : p = positZero c
  · rw [h0, decodeResponse_positZero]; simp [Response.fits, Response.empty]
  by_cases h1 : p = positNaR c
  · rw [h1, decodeResponse_positNaR hN]; simp [Response.fits, Response.empty]
  obtain ⟨hr, hzero, -, -⟩ := decodeResponse_flags h0 h1
  have hscale := scaleOf_range c p hN h0 h1
  rw [Int.abs_eq_natAbs] at hscale
  unfold Response.fits
  rw [hr, hzero, decodeResponse_tail_toNat hc h0 h1, decodeResponse_e_toNat hc h0 h1, decodeResponse_nf_toNat hc h0 h1,
    decodeResponse_m_toNat hc h0 h1, decodeResponse_k_toInt hc h0 h1, decodeResponse_scale_toInt hc h0 h1]
  exact ⟨Nat.two_pow_pos _, tailJustified_lt c p, exponent_lt c p, fractionLength_le c p hN, regimeRun_le c p,
    regimeValue_range c p hN h0 h1, mod_cast hscale, by rw [scaleOf, pow2_eq], by simp⟩

/-- Every response that a command gives fits. -/
theorem exec_response_fits {i : Instr} {s t : State} (hc : s.cfg.Legal) (h : exec i s = .next t) {r : Response}
    (hr : t.resp = some r) : r.fits s.cfg := by
  obtain ⟨v, rfl⟩ | ⟨z, rfl⟩ | ⟨v, rfl⟩ | ⟨p, rfl⟩ := exec_next_forms h <;> cases hr
  · exact empty_fits s.cfg
  · exact ofPosit_fits s.cfg z
  · exact ofWord_fits s.cfg v
  · exact decodeResponse_fits hc p

/-- Settles O17: an idle step keeps the response, a reset gives none, and every response that a command gives fits. -/
theorem stepsKeepTheInvariant : Obligations.StepsKeepTheInvariant := by
  rintro s t ⟨hc, hfits⟩ h
  obtain ⟨-, ⟨-, rfl⟩ | ⟨cmd, rest, i, -, -, he⟩ | ⟨rest, -, rfl⟩ | ⟨cmd, rest, -, rfl⟩⟩ := step_next_cases h
  · exact ⟨hc, hfits⟩
  · have hcfg := exec_keeps_cfg he
    refine ⟨hcfg ▸ hc, fun r hr => ?_⟩
    rw [hcfg]
    exact exec_response_fits (s := { s with pending := rest }) hc he hr
  · exact ⟨hc, fun _ hr => nomatch hr⟩
  · exact ⟨hc, fun _ hr => nomatch hr⟩

/-- Settles O18: there is no response after a reset. -/
theorem resetMeetsTheInvariant : Obligations.ResetMeetsTheInvariant :=
  ⟨⟨by decide, fun _ hr => nomatch hr⟩, fun _ hc => ⟨hc, fun _ hr => nomatch hr⟩⟩

end Sys2Proof.Machine
end

section
/-! PROOFS. The codec and the packer together (spec/40_codec.md R86 to R88; spec/41_packer.md R101, R104, R105, R108).
PDEC's fields denote the value, PENC rounds the real that its operands denote, and rounding a posit's value returns the
pattern; a magnitude result is from 1 to MAXPOS. -/

namespace Sys2Proof.Machine

open Sys2Proof

/-! ### PDEC and the value (R86, R88) -/

/-- The fraction left-justified in 64 bits denotes the same part of 1 (R85). -/
theorem fraction64_div_two_pow (c : Config) (p : BitVec c.N) (hnf : fractionLength c p ≤ 64) :
    (fraction64 c p : ℝ) / 2 ^ 64 = (fraction c p : ℝ) / 2 ^ fractionLength c p := by
  have hlt := fraction_lt c p
  rw [fraction64]
  split_ifs with hpos
  · have hsplit : (2 : ℝ) ^ 64 = 2 ^ fractionLength c p * 2 ^ (64 - fractionLength c p) := (pow_mul_pow_sub 2 hnf).symm
    rw [hsplit]
    push_cast
    exact mul_div_mul_right _ _ (by positivity)
  · have hzero : fraction c p = 0 := by simpa [Nat.eq_zero_of_not_pos hpos] using hlt
    simp [hzero]

/-- Settles O21: the response holds the sign, the scale and the justified fraction uncut. -/
theorem pdecFieldsDenoteTheValue : Obligations.PdecFieldsDenoteTheValue := by
  intro s a hc h0 h1
  have hnf := fractionLength_le s.cfg (a.setWidth s.cfg.N) hc.1
  have hN' := hc.2.1
  obtain ⟨-, -, -, hsign⟩ := decodeResponse_flags h0 h1
  refine ⟨_, exec_pdec s a, ?_⟩
  rw [operandPosit, hsign, decodeResponse_scale_toInt hc h0 h1, decodeResponse_x_toNat hc h0 h1,
    fraction64_div_two_pow _ _ (by omega), Reals.value, if_neg h1, if_neg h0]

theorem signed_eq_mul (neg : Bool) (y : ℝ) : (if neg then -y else y) = (if neg then -1 else 1) * y := by
  cases neg <;> simp

/-- Settles O22: PENC rounds the value that PDEC's fields denote, and a posit's value rounds to its pattern. -/
theorem pencOfPdecReturnsThePattern : Obligations.PencOfPdecReturnsThePattern := by
  intro s a hc h0 h1
  obtain ⟨r, hpdec, hvalue⟩ := pdecFieldsDenoteTheValue s a hc h0 h1
  obtain ⟨hpenc, -⟩ := pencRoundsTheRealItsOperandsDenote.2 { s with resp := some r } r.sign r.scale r.x hc _ rfl
  refine ⟨r, hpdec, ?_⟩
  rw [hpenc, signed_eq_mul, ← mul_assoc, positRound_realValue hc.1 hvalue]
  rfl

/-! ### `posit_round` of a dyadic rational (R105) -/

/-- Settles O25: a nonzero dyadic is packed from all of its bits, and 0 gives ZERO. -/
theorem machineRoundsLikeTheReals : Obligations.MachineRoundsLikeTheReals :=
  fun c x hc => positRound_eq_ofDyad c hc.1 x

/-! ### PENC's results (R101, R104, R108) -/

/-- A magnitude from 1 to MAXPOS with a sign is neither ZERO nor NaR, and has that sign. -/
theorem signed_magnitude_not_special {c : Config} (hN : 3 ≤ c.N) {mag : BitVec c.N} (hpos : 0 < mag.toNat)
    (hlt : mag.toNat < 2 ^ (c.N - 1)) (neg : Bool) :
    (if neg then -mag else mag) ≠ positZero c ∧ (if neg then -mag else mag) ≠ positNaR c ∧
      (if neg then -mag else mag).msb = neg := by
  obtain ⟨h0, h1, hmsb, -⟩ := not_special_of_toNat_range hN hpos hlt
  cases neg with
  | false => exact ⟨h0, h1, hmsb⟩
  | true => exact ⟨neg_ne_positZero c h0, neg_ne_positNaR c h1, by rw [if_pos rfl, msb_neg_eq_not c h0 h1, hmsb]; rfl⟩

/-- A part of the last fraction bit that the sticky bit may stand for: none of it, or half of it, say. -/
theorem exists_part_of_sticky (stk : Bool) : ∃ d : ℝ, 0 ≤ d ∧ d < 1 ∧ (stk = true ↔ d ≠ 0) := by
  cases stk
  · exact ⟨0, le_rfl, one_pos, by simp⟩
  · exact ⟨1 / 2, by norm_num, by norm_num, by norm_num⟩

/-- PENC's magnitude result is from 1 to MAXPOS (R104): it is `posit_round` of a positive real. -/
theorem pack_frac64_eq_signed_magnitude {c : Config} (hc : c.Legal) (neg : Bool) (scale : Int) (frac : QuireWord)
    (stk : Bool) : ∃ mag : BitVec c.N, pack c neg scale { len := 64, val := frac.toNat } stk
      = (if neg then -mag else mag) ∧ 0 < mag.toNat ∧ mag.toNat < 2 ^ (c.N - 1) := by
  obtain ⟨d, h0, h1, hd⟩ := exists_part_of_sticky stk
  have hx : 0 < (2 : ℝ) ^ scale * (1 + ((frac.toNat : ℝ) + d) / 2 ^ 64) := by
    have := zpow_pos (two_pos (α := ℝ)) scale
    positivity
  refine ⟨_, ?_, roundPositive_range hc.1 hx⟩
  rw [pack_frac64_eq_positRound c hc.2.1 hc.1 neg scale frac stk h0 h1 hd rfl, positRound_of_sign c neg _ hx]

/-- Settles O28: the result is a magnitude from 1 to MAXPOS with the given sign. -/
theorem pencNeverGivesZeroOrNaR : Obligations.PencNeverGivesZeroOrNaR := by
  intro s sgn scale frac stk hc
  obtain ⟨mag, hpack, hpos, hlt⟩ := pack_frac64_eq_signed_magnitude hc sgn scale.toInt frac stk
  exact ⟨_, mag, by rw [exec_penc, hpack], rfl, hpos, by omega, signed_magnitude_not_special hc.1 hpos hlt sgn⟩

section
variable (c : Config) {k : Int} (e : Nat) (F : BitStr) (sticky : Bool)

/-- A run of ones longer than N-2 bits saturates to MAXPOS (R101). -/
theorem packMagnitude_of_regime_high (hN : 3 ≤ c.N) (hk : (c.N : Int) - 2 ≤ k) :
    packMagnitude c k e F sticky = positMaxPos c := by
  have hlen : c.N - 2 < regimeLength k := by rw [regimeLength, if_pos (by omega)]; omega
  rw [packMagnitude, if_pos hlen, if_pos (by omega)]

/-- A run of zeros longer than N-2 bits saturates to MINPOS (R101). -/
theorem packMagnitude_of_regime_low (hN : 3 ≤ c.N) (hk : k < -((c.N : Int) - 2)) :
    packMagnitude c k e F sticky = positMinPos c := by
  have hlen : c.N - 2 < regimeLength k := by rw [regimeLength, if_neg (by omega)]; omega
  rw [packMagnitude, if_pos hlen, if_neg (by omega)]

end

/-- Settles O29: the regime of such a scale has a run longer than N-2 bits, which saturates. -/
theorem pencSaturatesOutsideTheScaleRange : Obligations.PencSaturatesOutsideTheScaleRange := by
  intro s sgn scale frac stk hc
  have hunit : (0 : Int) < 2 ^ s.cfg.ES := by positivity
  refine ⟨fun hhigh => ?_, fun hlow => ?_⟩
  · have hk : (s.cfg.N : Int) - 2 ≤ scaleRegime s.cfg scale.toInt := by
      rwa [scaleRegime, pow2_eq, Int.le_ediv_iff_mul_le hunit, mul_comm]
    rw [exec_penc, pack, packMagnitude_of_regime_high s.cfg _ _ _ hc.1 hk]
    rfl
  · have hk : scaleRegime s.cfg scale.toInt < -((s.cfg.N : Int) - 2) := by
      rwa [scaleRegime, pow2_eq, Int.ediv_lt_iff_lt_mul hunit, neg_mul, mul_comm]
    rw [exec_penc, pack, packMagnitude_of_regime_low s.cfg _ _ _ hc.1 hk]
    rfl

end Sys2Proof.Machine
end

section
/-! PROOFS. The laws of the arithmetic (spec/42_arith.md R132). A pattern is NaR, which every command gives back, or it
has a real value; on values each law is a law of the reals under `posit_round`, which commutes with negation and returns
the pattern of a posit's value. -/

namespace Sys2Proof.Machine

open Sys2Proof

/-! ### NaR or a value (R121) -/

theorem eq_positNaR_or_exists_realValue (c : Config) (p : BitVec c.N) :
    p = positNaR c ∨ ∃ x, Reals.value c p = some x := by
  rw [← realValue_eq_none_iff, ← Option.isSome_iff_exists, Option.isSome_iff_ne_none]
  exact em _

/-- Two operands of which one is NaR, or which both have values. -/
theorem nar_or_exists_realValues (c : Config) (a b : BitVec c.N) :
    (a = positNaR c ∨ b = positNaR c) ∨ ∃ x y, Reals.value c a = some x ∧ Reals.value c b = some y := by
  rcases eq_positNaR_or_exists_realValue c a with ha | ⟨x, hx⟩
  · exact .inl (.inl ha)
  rcases eq_positNaR_or_exists_realValue c b with hb | ⟨y, hy⟩
  · exact .inl (.inr hb)
  · exact .inr ⟨x, y, hx, hy⟩

theorem neg_eq_positNaR {c : Config} {p : BitVec c.N} (h : p = positNaR c) : -p = positNaR c := by
  rw [h, neg_positNaR]

section
variable {c : Config} (hN : 3 ≤ c.N) (a b : BitVec c.N)
include hN

/-! ### Negation and order of the operands -/

theorem positAdd_neg_neg : positAdd c (-a) (-b) = -positAdd c a b := by
  rcases nar_or_exists_realValues c a b with hnar | ⟨x, y, hx, hy⟩
  · rw [positAdd_of_nar hnar, positAdd_of_nar (hnar.imp neg_eq_positNaR neg_eq_positNaR), neg_positNaR]
  · rw [positAdd_eq_positRound hN hx hy, positAdd_eq_positRound hN (realValue_neg c hx) (realValue_neg c hy),
      ← positRound_neg, neg_add]

theorem positAdd_comm : positAdd c b a = positAdd c a b := by
  rcases nar_or_exists_realValues c a b with hnar | ⟨x, y, hx, hy⟩
  · rw [positAdd_of_nar hnar, positAdd_of_nar hnar.symm]
  · rw [positAdd_eq_positRound hN hx hy, positAdd_eq_positRound hN hy hx, add_comm]

theorem positSub_neg_right : positSub c a (-b) = positAdd c a b := by
  rcases nar_or_exists_realValues c a b with hnar | ⟨x, y, hx, hy⟩
  · rw [positAdd_of_nar hnar, positSub_of_nar (hnar.imp_right neg_eq_positNaR)]
  · rw [positAdd_eq_positRound hN hx hy, positSub_eq_positRound hN hx (realValue_neg c hy), sub_neg_eq_add]

theorem positMul_neg_left : positMul c (-a) b = -positMul c a b := by
  rcases nar_or_exists_realValues c a b with hnar | ⟨x, y, hx, hy⟩
  · rw [positMul_of_nar hnar, positMul_of_nar (hnar.imp_left neg_eq_positNaR), neg_positNaR]
  · rw [positMul_eq_positRound hN hx hy, positMul_eq_positRound hN (realValue_neg c hx) hy, ← positRound_neg, neg_mul]

theorem positMul_comm : positMul c b a = positMul c a b := by
  rcases nar_or_exists_realValues c a b with hnar | ⟨x, y, hx, hy⟩
  · rw [positMul_of_nar hnar, positMul_of_nar hnar.symm]
  · rw [positMul_eq_positRound hN hx hy, positMul_eq_positRound hN hy hx, mul_comm]

/-! ### ZERO and ONE -/

theorem positAdd_positZero : positAdd c a (positZero c) = a := by
  rcases eq_positNaR_or_exists_realValue c a with rfl | ⟨x, hx⟩
  · exact positAdd_of_nar (.inl rfl)
  · rw [positAdd_eq_positRound hN hx (realValue_positZero c hN), add_zero, positRound_realValue hN hx]

theorem positMul_positOne : positMul c a (positOne c) = a := by
  rcases eq_positNaR_or_exists_realValue c a with rfl | ⟨x, hx⟩
  · exact positMul_of_nar (.inl rfl)
  · rw [positMul_eq_positRound hN hx (realValue_positOne c hN), mul_one, positRound_realValue hN hx]

theorem positMul_positZero :
    positMul c a (positZero c) = if a = positNaR c then positNaR c else positZero c := by
  rcases eq_positNaR_or_exists_realValue c a with rfl | ⟨x, hx⟩
  · rw [if_pos rfl, positMul_of_nar (.inl rfl)]
  · rw [if_neg (ne_positNaR_of_realValue c hx), positMul_eq_positRound hN hx (realValue_positZero c hN), mul_zero,
      positRound_zero]

/-- The exact sum with the negation and the exact difference with itself are 0. -/
theorem cancel_of_ne_positNaR (h1 : a ≠ positNaR c) :
    positAdd c a (-a) = positZero c ∧ positSub c a a = positZero c := by
  obtain ⟨x, hx⟩ := (eq_positNaR_or_exists_realValue c a).resolve_left h1
  rw [positAdd_eq_positRound hN hx (realValue_neg c hx), positSub_eq_positRound hN hx hx, add_neg_cancel, sub_self,
    positRound_zero]
  exact ⟨rfl, rfl⟩

end

/-- Settles O39: each law is the law of the command's result function. -/
theorem arithmeticLawsHold : Obligations.ArithmeticLawsHold := by
  intro s a b na nb zr on hc hna hnb hzr hon
  have hN := hc.1
  simp only [exec_padd, exec_psub, exec_pmul, operandPosit, hna, hnb, hzr, hon]
  refine ⟨⟨_, rfl, ?_, ?_, ?_⟩, ⟨_, rfl, ?_, ?_⟩, ?_, ?_, ?_, exec_pdiv_of_zero_divisor hzr, exec_psqrt_of_toInt_neg,
    fun h1 => ?_⟩
  · rw [positAdd_neg_neg hN]
  · rw [positAdd_comm hN]
  · rw [positSub_neg_right hN]
  · rw [positMul_neg_left hN]
  · rw [positMul_comm hN]
  · rw [positAdd_positZero hN]
  · rw [positMul_positOne hN]
  · rw [positMul_positZero hN]
  · obtain ⟨hadd, hsub⟩ := cancel_of_ne_positNaR hN _ h1
    rw [hadd, hsub]
    exact ⟨rfl, rfl⟩

end Sys2Proof.Machine
end

section
/-! PROOFS. The quire's exactness, order and repeated commands (spec/43_quire.md R160, R166; spec/20_memory.md R44). The
product of two values is at most MAXPOS squared, QTOP is `posit_round` of the quire's value, and a word that is written
twice is written once. -/

namespace Sys2Proof.Machine

open Sys2Proof

/-! ### Products (R160) -/

/-- No posit's magnitude exceeds that of MAXPOS, ZERO included. -/
theorem abs_realValue_le {c : Config} (hc : c.Legal) {p : BitVec c.N} {x : ℝ} (hx : Reals.value c p = some x) :
    |x| ≤ 2 ^ (2 ^ c.ES * (c.N - 2)) := by
  have h1 : p ≠ positNaR c := ne_positNaR_of_realValue c hx
  by_cases h0 : p = positZero c
  · rw [h0, realValue_positZero c hc.1, Option.some.injEq] at hx
    rw [← hx, abs_zero]
    positivity
  · rw [← value_map_ofDyad, value, isNaR, isZero, if_neg (by simpa using h1), if_neg (by simpa using h0),
      Option.map_some, Option.some.injEq] at hx
    rw [← hx]
    exact abs_finiteValue_le c p hc h0 h1

/-- Settles O41: the integer is the product's units, and MAXPOS squared bounds the product. -/
theorem productsAreExactInTheQuire : Obligations.ProductsAreExactInTheQuire := by
  intro c p q x y hc hx hy
  obtain ⟨u, hu, hxu⟩ := exists_value_of_real c p hx
  obtain ⟨v, hv, hyv⟩ := exists_value_of_real c q hy
  have hz := productUnits_eq c hc hu hv
  rw [hxu, hyv] at hz
  refine ⟨productUnits c u v, hz, ?_⟩
  have hQW : 2 ^ c.ES * (c.N - 2) + 2 ^ c.ES * (c.N - 2) + c.QF ≤ c.QW - 2 := by
    obtain ⟨-, -, -, -, hQW, -⟩ := hc
    rw [Config.productBits, pow_succ', mul_assoc] at hQW
    omega
  have hbound : |(productUnits c u v : ℝ)| ≤ 2 ^ (c.QW - 2) :=
    calc |(productUnits c u v : ℝ)| = |x| * |y| * 2 ^ c.QF := by
          rw [hz, abs_mul, abs_mul, abs_of_pos (by positivity : (0 : ℝ) < 2 ^ c.QF)]
      _ ≤ 2 ^ (2 ^ c.ES * (c.N - 2)) * 2 ^ (2 ^ c.ES * (c.N - 2)) * 2 ^ c.QF := by
          gcongr
          · exact abs_realValue_le hc hx
          · exact abs_realValue_le hc hy
      _ = 2 ^ (2 ^ c.ES * (c.N - 2) + 2 ^ c.ES * (c.N - 2) + c.QF) := by rw [pow_add, pow_add]
      _ ≤ 2 ^ (c.QW - 2) := pow_le_pow_right₀ one_le_two hQW
  exact_mod_cast hbound

/-! ### QTOP (R106, R166) -/

/-- Settles O45: both results are `posit_round` of the quire values, which is monotone. -/
theorem qtopIsMonotone : Obligations.QtopIsMonotone := by
  intro s v hc hq hv hle
  refine ⟨_, _, exec_qtop s, exec_qtop { s with q := v }, ?_⟩
  rw [quireToPosit_eq_positRound hc.1 hq]
  have hvalue : (s.q.toInt : ℝ) / 2 ^ s.cfg.QF ≤ v.toInt / 2 ^ s.cfg.QF := by gcongr
  exact (positRound_toInt_mono hc.1 hvalue).trans_eq
    (congrArg BitVec.toInt (quireToPosit_eq_positRound hc.1 hv).symm)

/-! ### Repeated commands (R44) -/

/-- Writing a word that is there already changes nothing. -/
theorem quireWrite_quireWrite (c : Config) (q : BitVec c.QW) {i : Nat} (v : QuireWord) (hi : i < c.quireWords) :
    quireWrite c (quireWrite c q i v) i v = quireWrite c q i v := by
  apply BitVec.eq_of_getLsbD_eq
  intro j hj
  rw [quireWrite_getLsbD c _ v hi hj, quireWrite_getLsbD c q v hi hj]
  split_ifs <;> rfl

/-- Settles O48: PDEC, QTOP and QRD leave what they read, QCLR writes a constant, and QWR the same word again. -/
theorem repeatedReadsAndWritesChangeNothing : Obligations.RepeatedReadsAndWritesChangeNothing := by
  rintro s t i (rfl | rfl | ⟨a, rfl⟩ | ⟨idx, rfl⟩ | ⟨idx, data, rfl⟩) - h
  · cases h; rfl
  · cases h; rfl
  · cases h; rfl
  · obtain ⟨hi, rfl⟩ := exec_qrd_next h
    exact exec_qrd (withWord s (quireRead s.cfg s.q idx.toNat)) hi
  · obtain ⟨hi, rfl⟩ := exec_qwr_next h
    rw [exec_qwr (withQuire s (quireWrite s.cfg s.q idx.toNat data)) data hi]
    simp only [withQuire_cfg, withQuire_q, quireWrite_quireWrite _ _ _ hi]
    rfl

end Sys2Proof.Machine
end

section
/-! PROOFS. Runs on the quire (spec/43_quire.md R160, R166 to R169). Writing the saved words back restores the quire
from its most significant word down, and each QMADD of a sum that stays in range leaves the exact partial sum; both are
inductions on what the host still has to present. -/

namespace Sys2Proof.Machine

open Sys2Proof

/-! ### Saving and restoring (R167, R168) -/

/-- The command that writes the saved word `n` back. -/
def restoreWord (w : Nat → QuireWord) (n : Nat) : HostEvent := .command (encode (.qwr (BitVec.ofNat 16 n) (w n)))

theorem index_ofNat {n W : Nat} (hn : n < W) (hW : W ≤ 65536) : (BitVec.ofNat 16 n).toNat = n := by
  rw [BitVec.toNat_ofNat]; omega

/-- The step that writes a saved word back. -/
theorem step_restoreWord {s : State} (hl : s.instanceLegal) (hW : s.cfg.quireWords ≤ 65536) {w : Nat → QuireWord}
    {n : Nat} (hn : n < s.cfg.quireWords) {rest : List HostEvent} (hp : s.pending = restoreWord w n :: rest) :
    step s = .next (withQuire { s with pending := rest } (quireWrite s.cfg s.q n (w n))) := by
  have hidx := index_ofNat hn hW
  have hexec := exec_qwr { s with pending := rest } (w n) (idx := BitVec.ofNat 16 n) (by rwa [hidx])
  rw [hidx] at hexec
  exact (stepRunsThePresentedCommand s _ rest _ hl hp (decode_encode _)).trans hexec

/-- The machine `s` with the quire `q` and the response `r`, to which the host presents the last `m` words. -/
def restoring (s : State) (w : Nat → QuireWord) (m : Nat) (q : BitVec s.cfg.QW) (r : Option Response) : State :=
  { s with q := q, resp := r, pending := (List.range' (s.cfg.quireWords - m) m).map (restoreWord w) }

theorem restoring_pending_succ (s : State) (w : Nat → QuireWord) {m : Nat} (hm : m < s.cfg.quireWords)
    (q : BitVec s.cfg.QW) (r : Option Response) : (restoring s w (m + 1) q r).pending
      = restoreWord w (s.cfg.quireWords - 1 - m) :: (restoring s w m q r).pending := by
  have hfirst : s.cfg.quireWords - (m + 1) = s.cfg.quireWords - 1 - m := by omega
  have hnext : s.cfg.quireWords - 1 - m + 1 = s.cfg.quireWords - m := by omega
  simp only [restoring, List.range'_succ, List.map_cons, hfirst, hnext]

section
variable {s : State} (hl : s.instanceLegal) (hW : s.cfg.quireWords ≤ 65536) {w : Nat → QuireWord}
include hl hW

theorem step_restoring {m : Nat} (hm : m < s.cfg.quireWords) (q : BitVec s.cfg.QW) (r : Option Response) :
    step (restoring s w (m + 1) q r) = .next (restoring s w m
      (quireWrite s.cfg q (s.cfg.quireWords - 1 - m) (w (s.cfg.quireWords - 1 - m))) (some Response.empty)) :=
  step_restoreWord (s := restoring s w (m + 1) q r) hl hW (show s.cfg.quireWords - 1 - m < s.cfg.quireWords by omega)
    (restoring_pending_succ s w hm q r)

/-- When the words before the last `m`, which are the bits from `64*m` on, are the saved ones, writing the last `m` back
restores the quire. -/
theorem run_restoring (hw : ∀ n, n < s.cfg.quireWords → w n = quireRead s.cfg s.q n) {m : Nat}
    (hm : m ≤ s.cfg.quireWords) {q : BitVec s.cfg.QW} {r : Option Response}
    (hq : ∀ j, 64 * m ≤ j → j < s.cfg.QW → q.getLsbD j = s.q.getLsbD j) :
    Host.Core.run Sys2Proof.core m (restoring s w m q r)
      = .next (restoring s w 0 s.q (if m = 0 then r else some Response.empty)) := by
  induction m generalizing q r with
  | zero =>
    obtain rfl : q = s.q := BitVec.eq_of_getLsbD_eq fun j hj => hq j (Nat.zero_le j) hj
    exact run_zero _
  | succ m ih =>
    have hplace : s.cfg.quireWords - 1 - (s.cfg.quireWords - 1 - m) = m := by omega
    have hq' (j : Nat) (hmj : 64 * m ≤ j) (hj : j < s.cfg.QW) :
        (quireWrite s.cfg q (s.cfg.quireWords - 1 - m) (w (s.cfg.quireWords - 1 - m))).getLsbD j
          = s.q.getLsbD j := by
      rw [quireWrite_getLsbD s.cfg q _ (by omega) hj, hplace]
      split_ifs with hin
      · rw [hw _ (by omega), quireRead_getLsbD s.cfg s.q (by omega) (by omega), hplace, Nat.add_sub_cancel' hmj,
          if_pos hj]
      · exact hq j (by omega) hj
    rw [run_succ m (step_restoring hl hW hm q r), ih (by omega) hq', ite_self, if_neg m.succ_ne_zero]

end

/-- A word that QRD answers is the word of the view. -/
theorem eq_quireRead_of_exec_qrd {s : State} {v : QuireWord} {n : Nat} (hn : n < s.cfg.quireWords)
    (hW : s.cfg.quireWords ≤ 65536) (h : exec (.qrd (BitVec.ofNat 16 n)) s = .next (withWord s v)) :
    v = quireRead s.cfg s.q n := by
  obtain ⟨-, hword⟩ := exec_qrd_next h
  have hx := congrArg (fun t : State => t.resp.map Response.x) hword
  rw [index_ofNat hn hW] at hx
  exact Option.some.inj hx

theorem quireWords_ne_zero {c : Config} (hc : c.Legal) : c.quireWords ≠ 0 := by
  obtain ⟨-, -, -, -, hQW, -⟩ := hc
  rw [Config.quireWords]
  omega

/-- Settles O49, by induction on the number of words that are still to be written back. -/
theorem savedQuireIsRestoredBitForBit : Obligations.SavedQuireIsRestoredBitForBit := by
  intro s other w hl hW hsaved
  have hw (n : Nat) (hn : n < s.cfg.quireWords) : w n = quireRead s.cfg s.q n :=
    eq_quireRead_of_exec_qrd hn hW (hsaved n hn)
  have hrun := run_restoring hl hW hw le_rfl (q := other) (r := s.resp)
    (fun j hj hj' => absurd hj (by have := quireWidth_le_viewBits s.cfg; rw [viewBits_eq] at this; omega))
  rw [if_neg (quireWords_ne_zero hl.1), restoring, Nat.sub_self, ← List.range_eq_range'] at hrun
  exact ⟨_, hrun, rfl⟩

/-! ### Sums of products (R160, R164, R166) -/

theorem exactDot_cons (c : Config) (ab : Bus × Bus) (l : List (Bus × Bus)) :
    exactDot c (ab :: l) = busValue c ab.1 * busValue c ab.2 + exactDot c l := by
  rw [exactDot, List.map_cons, List.sum_cons, exactDot]

theorem exactDot_nil (c : Config) : exactDot c [] = 0 := rfl

/-- An operand other than NaR has the value of its bus. -/
theorem realValue_eq_busValue {c : Config} {a : Bus} (h : a.setWidth c.N ≠ positNaR c) :
    Reals.value c (a.setWidth c.N) = some (busValue c a) := by
  obtain ⟨x, hx⟩ := (eq_positNaR_or_exists_realValue c (a.setWidth c.N)).resolve_left h
  rw [busValue, hx, Option.getD_some]

/-- A quire strictly inside the range of signed integers is not QNaR (R21). -/
theorem ne_quireNaR_of_abs_lt {c : Config} (hc : c.Legal) {q : BitVec c.QW}
    (h : |(q.toInt : ℝ)| < 2 ^ (c.QW - 1)) : q ≠ quireNaR c := by
  rintro rfl
  have hQW : 0 < c.QW := by obtain ⟨-, -, -, -, hQW, -⟩ := hc; omega
  rw [quireNaR_eq_intMin, BitVec.toInt_intMin_of_pos hQW] at h
  simp at h

/-- An integer strictly inside the range is the value of its quire pattern (R169). -/
theorem toInt_ofInt_of_abs_lt {w : Nat} (hw : 0 < w) {z : Int} (h : |(z : ℝ)| < 2 ^ (w - 1)) :
    (BitVec.ofInt w z).toInt = z := by
  have hz : |z| < 2 ^ (w - 1) := by exact_mod_cast h
  obtain ⟨hlo, hhi⟩ := abs_lt.1 hz
  exact BitVec.toInt_ofInt_eq_self hw hlo.le hhi

/-- QMADD adds the exact product to a quire that neither starts nor ends outside the range. -/
theorem exec_qmadd_of_bounded {s : State} (hc : s.cfg.Legal) {a b : Bus} (ha : a.setWidth s.cfg.N ≠ positNaR s.cfg)
    (hb : b.setWidth s.cfg.N ≠ positNaR s.cfg) (hq : |(s.q.toInt : ℝ)| < 2 ^ (s.cfg.QW - 1))
    (hsum : |(s.q.toInt : ℝ) + busValue s.cfg a * busValue s.cfg b * 2 ^ s.cfg.QF| < 2 ^ (s.cfg.QW - 1)) :
    ∃ v : BitVec s.cfg.QW, exec (.qmadd a b) s = .next (withQuire s v) ∧
      (v.toInt : ℝ) = s.q.toInt + busValue s.cfg a * busValue s.cfg b * 2 ^ s.cfg.QF := by
  obtain ⟨x, hx, hxv⟩ := exists_value_of_real _ _ (realValue_eq_busValue ha)
  obtain ⟨y, hy, hyv⟩ := exists_value_of_real _ _ (realValue_eq_busValue hb)
  have hunits := productUnits_eq s.cfg hc hx hy
  rw [hxv, hyv] at hunits
  refine ⟨_, (exec_accumulate_of_values hc (ne_quireNaR_of_abs_lt hc hq) hx hy).1, ?_⟩
  have hQW : 0 < s.cfg.QW := by obtain ⟨-, -, -, -, hQW, -⟩ := hc; omega
  rw [toInt_ofInt_of_abs_lt hQW (by rw [Int.cast_add, hunits]; exact hsum), Int.cast_add, hunits]

/-- The machine `s` with the quire `q` and the response `r`, to which the host presents the products `l` and QTOP. -/
def accumulating (s : State) (l : List (Bus × Bus)) (q : BitVec s.cfg.QW) (r : Option Response) : State :=
  { s with
    q := q
    resp := r
    pending := l.map (fun ab => HostEvent.command (encode (.qmadd ab.1 ab.2))) ++ [HostEvent.command (encode .qtop)] }

section
variable {s : State} (hl : s.instanceLegal)
include hl

/-- The step that takes the first product. -/
theorem step_accumulating_cons {ab : Bus × Bus} (l : List (Bus × Bus)) {q : BitVec s.cfg.QW} (r : Option Response)
    (hnar : ab.1.setWidth s.cfg.N ≠ positNaR s.cfg ∧ ab.2.setWidth s.cfg.N ≠ positNaR s.cfg)
    (hq : |(q.toInt : ℝ)| < 2 ^ (s.cfg.QW - 1))
    (hsum : |(q.toInt : ℝ) + busValue s.cfg ab.1 * busValue s.cfg ab.2 * 2 ^ s.cfg.QF| < 2 ^ (s.cfg.QW - 1)) :
    ∃ v : BitVec s.cfg.QW, step (accumulating s (ab :: l) q r) = .next (accumulating s l v (some Response.empty)) ∧
      (v.toInt : ℝ) = q.toInt + busValue s.cfg ab.1 * busValue s.cfg ab.2 * 2 ^ s.cfg.QF := by
  obtain ⟨v, hexec, hv⟩ := exec_qmadd_of_bounded (s := accumulating s l q r) hl.1 hnar.1 hnar.2 hq hsum
  exact ⟨v, (stepRunsThePresentedCommand (accumulating s (ab :: l) q r) _ _ _ hl rfl (decode_encode _)).trans hexec, hv⟩

/-- The step that takes QTOP. -/
theorem step_accumulating_nil {q : BitVec s.cfg.QW} (r : Option Response) (hq : q ≠ quireNaR s.cfg) :
    step (accumulating s [] q r) = .next { withResult { s with q := q }
      (Reals.positRound s.cfg ((q.toInt : ℝ) / 2 ^ s.cfg.QF)) with pending := [] } := by
  rw [← quireToPosit_eq_positRound hl.1.1 hq]
  exact (stepRunsThePresentedCommand (accumulating s [] q r) _ _ _ hl rfl (decode_encode .qtop)).trans (exec_qtop _)

/-- From any quire, if no partial sum leaves the range, the run leaves the exact sum in `Q` and rounds it once. -/
theorem run_accumulating {l : List (Bus × Bus)} {q : BitVec s.cfg.QW} {r : Option Response}
    (hnar : ∀ ab ∈ l, ab.1.setWidth s.cfg.N ≠ positNaR s.cfg ∧ ab.2.setWidth s.cfg.N ≠ positNaR s.cfg)
    (hbound : ∀ n, |(q.toInt : ℝ) + exactDot s.cfg (l.take n) * 2 ^ s.cfg.QF| < 2 ^ (s.cfg.QW - 1)) :
    ∃ v : BitVec s.cfg.QW, (v.toInt : ℝ) = q.toInt + exactDot s.cfg l * 2 ^ s.cfg.QF ∧
      Host.Core.run Sys2Proof.core (l.length + 1) (accumulating s l q r)
        = .next { withResult { s with q := v } (Reals.positRound s.cfg ((v.toInt : ℝ) / 2 ^ s.cfg.QF))
            with pending := [] } := by
  have hq : |(q.toInt : ℝ)| < 2 ^ (s.cfg.QW - 1) := by simpa [exactDot_nil] using hbound 0
  induction l generalizing q r with
  | nil =>
    refine ⟨q, by simp [exactDot_nil], ?_⟩
    rw [List.length_nil, run_succ 0 (step_accumulating_nil hl r (ne_quireNaR_of_abs_lt hl.1 hq)), run_zero]
  | cons ab l ih =>
    have hfirst := hbound 1
    rw [List.take_succ_cons, List.take_zero, exactDot_cons, exactDot_nil, add_zero] at hfirst
    obtain ⟨v, hstep, hv⟩ := step_accumulating_cons hl l r (hnar ab List.mem_cons_self) hq hfirst
    have hpartial (l' : List (Bus × Bus)) : (v.toInt : ℝ) + exactDot s.cfg l' * 2 ^ s.cfg.QF
        = q.toInt + exactDot s.cfg (ab :: l') * 2 ^ s.cfg.QF := by rw [hv, exactDot_cons, add_mul, add_assoc]
    have hrest (n : Nat) : |(v.toInt : ℝ) + exactDot s.cfg (l.take n) * 2 ^ s.cfg.QF| < 2 ^ (s.cfg.QW - 1) := by
      rw [hpartial, ← List.take_succ_cons]; exact hbound (n + 1)
    obtain ⟨u, hu, hrun⟩ := ih (r := some Response.empty) (fun ab' hmem => hnar ab' (List.mem_cons_of_mem ab hmem))
      hrest (by rwa [hv])
    exact ⟨u, by rw [hu, hpartial], by rw [List.length_cons, run_succ _ hstep, hrun]⟩

end

/-- Settles O50, by induction on the list of products: the quire holds each partial sum exactly. -/
theorem dotProductIsRoundedOnce : Obligations.DotProductIsRoundedOnce := by
  intro s l hl hp hnar hbound
  have hclear : step s = .next (accumulating s l 0 (some Response.empty)) :=
    (stepRunsThePresentedCommand s _ _ _ hl hp (decode_encode .qclr)).trans (exec_qclr _)
  obtain ⟨v, hv, hrun⟩ := run_accumulating hl (l := l) (q := 0) (r := some Response.empty) hnar
    (fun n => by simpa [abs_mul] using hbound n)
  have hv' : (v.toInt : ℝ) = exactDot s.cfg l * 2 ^ s.cfg.QF := by simpa using hv
  refine ⟨v, hv', ?_⟩
  rw [run_succ _ hclear, hrun, hv', mul_div_cancel_right₀ _ (by positivity)]

end Sys2Proof.Machine
end
